-- ==== Sys2Proof/Word.lean ====
section
/-! DEFINITION. The two sizes of value the engine handles: the byte and the 64-bit word (00_scope.md R7,
40_word_arithmetic.md R60), and the byte string a packet is (30_encoding.md R45). -/

namespace Sys2Proof

/-- A byte, `0 .. 255` (R7). -/
abbrev Byte := BitVec 8

/-- A word, `0 .. 2^64 - 1`, always unsigned (R7, R60). -/
abbrev Word := BitVec 64

/-- A packet: a byte string in the order of transmission (R45). -/
abbrev Packet := List Byte

end Sys2Proof
end

