-- ==== Sys2Proof/Machine/Arith.lean ====
section
/-! DEFINITION. The word operations (40_word_arithmetic.md R61 to R65): the three arithmetic operations and the two byte-order
conversions, and no others (R67). -/

namespace Sys2Proof.Machine

/-- The word whose bits are all one, `ONES64` (R9). -/
abbrev ones64 : Word := 0xFFFFFFFFFFFFFFFF

/-- `ADD64` (R61): addition modulo `2^64`; the carry out of bit 63 is discarded. -/
abbrev add64 (a b : Word) : Word := a + b

/-- `XOR64` (R62): bitwise exclusive or. -/
abbrev xor64 (a b : Word) : Word := a ^^^ b

/-- `ROTR64` (R63): rotation right by `n mod 64`, written as the two shifts of the rule, and the word itself when the amount
is 0 modulo 64. -/
def rotr64 (w : Word) (n : Nat) : Word :=
  if n % 64 = 0 then w else (w >>> (n % 64)) + (w <<< (64 - n % 64))

/-- The number a byte string stands for, its first byte least significant (R64). -/
def leNat : List Byte → Nat
  | [] => 0
  | b :: bs => b.toNat + 256 * leNat bs

/-- `LOAD64` (R64): the little-endian word of eight bytes. -/
def load64 (s : List Byte) : Word := BitVec.ofNat 64 (leNat s)

/-- Byte `k` of a word: bits `8k+7 : 8k` (R7). -/
def byteOf (w : Word) (k : Nat) : Byte := (w >>> (8 * k)).setWidth 8

/-- `STORE64` (R65): the eight bytes of a word, least significant first. -/
def store64 (w : Word) : List Byte :=
  [byteOf w 0, byteOf w 1, byteOf w 2, byteOf w 3, byteOf w 4, byteOf w 5, byteOf w 6, byteOf w 7]

/-- `n` bytes of value 0 (R7). -/
def zeros (n : Nat) : List Byte := List.replicate n 0

end Sys2Proof.Machine
end

