-- ==== Sys2Proof/Machine/Mixer.lean ====
section
/-! DEFINITION. The mixing function `G` (41_mixer_g.md R70). -/

namespace Sys2Proof.Machine

/-- `G(a, b, c, d, x, y)` on the working vector: eight steps, each on the values the earlier ones wrote (R70). -/
def mixG (v : Vector Word 16) (a b c d : Fin 16) (x y : Word) : Vector Word 16 :=
  let v1 := v.set a (add64 (add64 v[a] v[b]) x)
  let v2 := v1.set d (rotr64 (xor64 v1[d] v1[a]) rotations[0])
  let v3 := v2.set c (add64 v2[c] v2[d])
  let v4 := v3.set b (rotr64 (xor64 v3[b] v3[c]) rotations[1])
  let v5 := v4.set a (add64 (add64 v4[a] v4[b]) y)
  let v6 := v5.set d (rotr64 (xor64 v5[d] v5[a]) rotations[2])
  let v7 := v6.set c (add64 v6[c] v6[d])
  v7.set b (rotr64 (xor64 v7[b] v7[c]) rotations[3])

end Sys2Proof.Machine
end

