-- ==== Sys2Proof/Syntax.lean ====
section
/-! DEFINITION. The instructions: one constructor for each row of spec/opcode_table.json (30_encoding.md R47, R48, R49,
R57). Operands are those of R50: `nn` is the header's argument byte, `key` and `data` are the payload. -/

namespace Sys2Proof

/-- The three commands of the engine and the one pseudo-instruction of its host (R51, R57). -/
inductive Instr where
  /-- `INIT nn, key`: create a context for an `nn`-byte digest; an empty `key` means no key (R47, R85). -/
  | init (nn : Byte) (key : List Byte)
  /-- `UPDATE data`: absorb message bytes (R48, R91). -/
  | update (data : List Byte)
  /-- `FINAL`: finish and return the digest (R49, R98). -/
  | final
  /-- `HASH nn, data`: the host's expansion into `INIT nn`; `UPDATE data`; `FINAL` (R57, R102). -/
  | hash (nn : Byte) (data : List Byte)
deriving DecidableEq, Repr

end Sys2Proof
end

