-- ==== Sys2Proof/WellFormed.lean ====
section
/-! DEFINITION. Which instructions are commands of the engine, that is, have a packet of their own (30_encoding.md R51,
R57). Operand ranges need no check here: any argument byte and any payload length decodes (R47, R48), and what is out
of range is answered by the command itself (43_init.md R85). -/

namespace Sys2Proof

/-- A well-formed instruction has a packet of its own; `HASH` has none (R57: "no opcode of its own"). -/
def Instr.wellFormed : Instr → Bool
  | .init _ _ => true
  | .update _ => true
  | .final => true
  | .hash _ _ => false

end Sys2Proof
end

