-- ==== Sys2Proof/Decode.lean ====
section
/-! DEFINITION. The decoder and, after it, the encoder (30_encoding.md R45 to R55), and the decoder on a word laid out as
spec/opcode_table.json numbers its bits. The decoder is total on byte strings, reads no state, and
rejects by name. -/

namespace Sys2Proof

/-- Why a packet is no command (the illegal rows of R51). The answer is the same for all of them. -/
inductive IllegalPacket where
  /-- Fewer than the two header bytes. -/
  | tooShort
  /-- An operation code that is none of `0x01`, `0x02`, `0x03`. -/
  | unknownOpcode (opc : Byte)
  /-- `UPDATE` or `FINAL` with a reserved argument byte that is not zero. -/
  | reservedArgument (opc arg : Byte)
  /-- `FINAL` with a payload. -/
  | unexpectedPayload
deriving DecidableEq, Repr

/-- Operation code of `INIT` (R47). -/
abbrev opcInit : Byte := 0x01

/-- Operation code of `UPDATE` (R48). -/
abbrev opcUpdate : Byte := 0x02

/-- Operation code of `FINAL` (R49). -/
abbrev opcFinal : Byte := 0x03

/-- The reserved argument byte of `UPDATE` and `FINAL` (R48, R49). -/
abbrev argReserved : Byte := 0x00

/-- The header as one 16-bit number: `pkt[0]` in bits 7:0, `pkt[1]` in bits 15:8 (R46). -/
def header (opc arg : Byte) : BitVec 16 := arg ++ opc

/-- `Decode` of R54: the operation code first, then the argument, then the payload length (R51). -/
def decode : Packet → Except IllegalPacket Instr
  | [] => .error .tooShort
  | [_] => .error .tooShort
  | opc :: arg :: pay =>
    if opc = opcInit then .ok (.init arg pay)
    else if opc = opcUpdate then
      if arg = argReserved then .ok (.update pay) else .error (.reservedArgument opc arg)
    else if opc = opcFinal then
      if arg = argReserved then
        if pay = [] then .ok .final else .error .unexpectedPayload
      else .error (.reservedArgument opc arg)
    else .error (.unknownOpcode opc)

/-- `Encode` of R55: the packet of a command. `HASH` has no packet (R57). -/
def encode : Instr → Option Packet
  | .init nn key => some (opcInit :: nn :: key)
  | .update data => some (opcUpdate :: argReserved :: data)
  | .final => some [opcFinal, argReserved]
  | .hash _ _ => none

/-- The commands the host sends for a line of a program: the command itself, or the expansion of `HASH` (R57). With a digest
length outside `1 .. 64` the `INIT` of the expansion is answered `InvalidParameter`, and the host sends nothing else
(R57; 45_final_and_hash.md R102; 90_conflicts.md C7). -/
def expansion : Instr → List Instr
  | .init nn key => [.init nn key]
  | .update data => [.update data]
  | .final => [.final]
  | .hash nn data =>
    if 1 ≤ nn.toNat ∧ nn.toNat ≤ 64 then [.init nn [], .update data, .final] else [.init nn []]

/-- The packets of an expansion, in the order they are sent (R57). -/
def packetsOf (i : Instr) : List Packet := (expansion i).filterMap encode

/-- The packet a table word denotes: byte `k` is bits `8k+7 : 8k` of `w`, the first byte lowest (R46, and the `word` entry
of spec/opcode_table.json). The table gives payload bytes no bits, so the packet has exactly `nbits` bits and
an empty payload where `nbits` is 16 (notes/assumptions/9.md). -/
def tablePacket (nbits w : Nat) : Packet :=
  (List.range ((nbits + 7) / 8)).map fun k => BitVec.ofNat 8 ((w % 2 ^ nbits) / 2 ^ (8 * k))

/-- What the decoder reads from an instruction whose bits are `w`, numbered as spec/opcode_table.json numbers them. -/
def decodeTableWord (nbits w : Nat) : Option Instr :=
  match decode (tablePacket nbits w) with
  | .ok i => some i
  | .error _ => none

end Sys2Proof
end

