-- ==== Sys2Proof/Machine/Flags.lean ====
section
/-! DEFINITION. The flags of the hardware are the two finalization words `F[0]` and `F[1]` (10_state.md R12); there are no
condition codes. The one carry is computed and consumed inside `INC_T` (40_word_arithmetic.md R66). -/

namespace Sys2Proof.Machine

/-- Both flag words as `INIT` leaves them (43_init.md R86). -/
def clearedFlags : Vector Word 2 := #v[0, 0]

/-- The last-block mark: `F[0] <- ONES64`; `F[1]` is not written (45_final_and_hash.md R99). -/
def markLastBlock (f : Vector Word 2) : Vector Word 2 := f.set 0 ones64

/-- The carry of `INC_T`: the new low word is below the addend exactly when the addition wrapped (R66). -/
def counterCarry (newLow : Word) (k : Nat) : Bool := decide (newLow.toNat < k)

/-- `INC_T(k)` on the two counter words (R66). The carry out of `T[1]` is dropped (decision D14). -/
def incCounter (t : Vector Word 2) (k : Nat) : Vector Word 2 :=
  let low := add64 t[0] (BitVec.ofNat 64 k)
  #v[low, if counterCarry low k then add64 t[1] 1 else t[1]]

/-- The counter as a number: `T[0] + 2^64 * T[1]` (10_state.md R11). -/
def counterValue (t : Vector Word 2) : Nat := t[0].toNat + 2 ^ 64 * t[1].toNat

end Sys2Proof.Machine
end

