-- ==== Sys2Proof/Machine/Operands.lean ====
section
/-! DEFINITION. Operand assembly (30_encoding.md R50), the transient layouts built from operands (20_memory.md R39 to R41),
and the checks on them (43_init.md R85). The digest length is the header's argument byte taken unsigned, the key length
is the number of payload bytes, and neither is scaled or sign extended. -/

namespace Sys2Proof.Machine

/-- The digest-length operand: the argument byte as an unsigned number (R50). -/
abbrev digestLength (nn : Byte) : Nat := nn.toNat

/-- The key-length operand: the length of the payload (R50; decision D18). -/
abbrev keyLength (key : List Byte) : Nat := key.length

/-- The operand checks of `INIT` (R85): `nn` in `1 .. 64` and at most 64 key bytes. -/
def initOperandsLegal (nn : Byte) (key : List Byte) : Bool :=
  !(decide (digestLength nn < 1) || decide (digestLength nn > 64)) && !decide (keyLength key > 64)

/-- The 64-byte parameter block `P` (R24, R39): digest length, key length, fanout 1, depth 1, and 60 zero bytes. -/
def paramBlock (nn kk : Byte) : List Byte := [nn, kk, 0x01, 0x01] ++ zeros 60

/-- `P0`, the first word of the parameter block (R34, R39). -/
def paramWord (nn kk : Byte) : Word := load64 ((paramBlock nn kk).take 8)

/-- The chaining words as `INIT` sets them: `IV`, with `P0` xored into the first (R86). -/
def initialChain (nn kk : Byte) : Vector Word 8 := iv.set 0 (xor64 iv[0] (paramWord nn kk))

/-- The 128-byte key block: the key, then zeros (R41, R87). -/
def keyBlock (key : List Byte) : List Byte := key ++ zeros (128 - keyLength key)

/-- The 64-byte serialized state `OUT` (R33, R40, R100). -/
def outBytes (h : Vector Word 8) : List Byte :=
  store64 h[0] ++ store64 h[1] ++ store64 h[2] ++ store64 h[3] ++
  store64 h[4] ++ store64 h[5] ++ store64 h[6] ++ store64 h[7]

/-- The digest: the first `NN` bytes of `OUT` (R40, R100). -/
def digest (nn : Byte) (h : Vector Word 8) : List Byte := (outBytes h).take (digestLength nn)

end Sys2Proof.Machine
end

