-- ==== Sys2Proof/Config.lean ====
section
/-! DEFINITION. What the spec leaves open. Every parameter of the design is fixed by 00_scope.md R6 and is written where
it is used; the only open values are those of 92_eei_decisions.md's parameter `S_reset`: what the registers
hold after a reset that arrives while the engine runs (70_reset_and_hazards.md R120). Each is a constant with no body, so
that nothing can be proved about its value, applied to the number of resets the engine has taken before. DESIGN CHOICE,
unsafe for a claim that compares two engines: the constants do not name the engine, so engines that have taken equally
many resets hold equal values (notes/assumptions/3.md). -/

namespace Sys2Proof

/-- What the chaining words `H` hold after the reset with this number (R27, R120; S_reset). -/
opaque Config.resetH : Nat → Vector Word 8

/-- What the counter words `T` hold after the reset with this number (R27, R120; S_reset). -/
opaque Config.resetT : Nat → Vector Word 2

/-- What the flag words `F` hold after the reset with this number (R27, R120; S_reset). -/
opaque Config.resetF : Nat → Vector Word 2

/-- What `BUFLEN` holds after the reset with this number (R27, R120; S_reset). -/
opaque Config.resetBuflen : Nat → Fin 129

/-- What `NN` holds after the reset with this number (R27, R120; S_reset). -/
opaque Config.resetNn : Nat → BitVec 8

/-- What `KK` holds after the reset with this number (R27, R120; S_reset). -/
opaque Config.resetKk : Nat → BitVec 8

/-- What the working vector `V` holds after the reset with this number (R27, R120; S_reset). -/
opaque Config.resetV : Nat → Vector Word 16

end Sys2Proof
end

