-- ==== Sys2Proof/Machine/Memory.lean ====
section
/-! DEFINITION. Byte memory as plain data: the cells of `BUF` that hold a value, strictly rising in address
(10_state.md R13, 20_memory.md R30, R31). An address that is not listed holds no value (R27: "a model must treat each
as holding no value"; notes/assumptions/2.md), so the canonical form needs no comparison with a default. -/

namespace Sys2Proof.Machine

/-- The listed cells of `BUF`. -/
abbrev Memory := List Host.Cell

/-- The byte at an address, if it holds one. -/
def Memory.read : Memory → Nat → Option Byte
  | [], _ => none
  | (k, b) :: rest, a => if k = a then some b else Memory.read rest a

/-- One byte written, the cells kept in rising order. -/
def Memory.write : Memory → Nat → Byte → Memory
  | [], a, b => [(a, b)]
  | (k, c) :: rest, a, b =>
    if a < k then (a, b) :: (k, c) :: rest
    else if a = k then (a, b) :: rest
    else (k, c) :: Memory.write rest a b

/-- `n` bytes from address `a` upward, lowest address first (R31); `none` if one of them holds no value. -/
def Memory.readBytes (m : Memory) : Nat → Nat → Option (List Byte)
  | _, 0 => some []
  | a, n + 1 =>
    match m.read a, Memory.readBytes m (a + 1) n with
    | some b, some bs => some (b :: bs)
    | _, _ => none

/-- A byte string written from address `a` upward, its first byte lowest (R31). -/
def Memory.writeBytes : Memory → Nat → List Byte → Memory
  | m, _, [] => m
  | m, a, b :: bs => Memory.writeBytes (Memory.write m a b) (a + 1) bs

/-- The cells rise strictly from `lo` and lie below 128. -/
def Memory.wfFrom : Nat → Memory → Bool
  | _, [] => true
  | lo, (a, _) :: rest => decide (lo ≤ a) && decide (a < 128) && Memory.wfFrom (a + 1) rest

/-- The canonical form: addresses strictly rising, all in `0 .. 127` (R13). -/
def Memory.wf (m : Memory) : Bool := Memory.wfFrom 0 m

end Sys2Proof.Machine
end

