-- ==== Sys2Proof/Machine/State.lean ====
section
/-! DEFINITION. The architectural state (10_state.md R10 to R19), the two streams (20_memory.md R30), the program position
(R25), and the state right after reset (R27). Plain data only. -/

namespace Sys2Proof.Machine

/-- `PHASE` (R17): the three legal values of the two-bit register. -/
inductive Phase where
  /-- No context. -/
  | idle
  /-- A ready context. -/
  | active
  /-- A finalized context. -/
  | done
deriving DecidableEq, Repr

/-- The exceptions of R106: a command that reports a status other than `OK` and changes nothing. -/
inductive Exception where
  /-- `INIT` with a digest or key length out of range (R107). -/
  | invalidParameter
  /-- `UPDATE` or `FINAL` while `PHASE` is not `ACTIVE` (R108). -/
  | protocolViolation
  /-- A packet that decodes to no command (R109). -/
  | illegalCommand
deriving DecidableEq, Repr

/-- The statuses of R53: `OK` or an exception. -/
inductive Status where
  /-- The command completed. -/
  | ok
  /-- The command raised. -/
  | raised (e : Exception)
deriving DecidableEq, Repr

/-- What reaches the engine from outside: a command packet (R45), or the reset (R120). -/
inductive HostEvent where
  /-- A command packet, delivered whole. -/
  | packet (bytes : Packet)
  /-- The reset. `cut` is the packet whose command was in progress and is abandoned with no response, if there was one. -/
  | reset (cut : Option Packet)
deriving DecidableEq, Repr

/-- Reasons a step stops. No rule of the spec stops the engine; each of these is ruled out in every state that meets
`Sys2Proof.Machine.State.Inv` (Safety.lean). -/
inductive Fault where
  /-- Raised by `memRead` and `memWrite` for an access that leaves `0 .. 127` (R31, R44: "an out-of-range access is
  therefore impossible and has no defined behaviour or fault"). Safe: the model stops. -/
  | addressOutOfRange (addr n : Nat)
  /-- Raised by `memRead` when one of the `n` bytes from `addr` has held no value since reset (R13: "no rule reads them before
  overwriting them"; R27: "a model must treat each as holding no value"). Safe: the model stops. -/
  | unwrittenByte (addr n : Nat)
  /-- Raised by `absorbLoop` if the loop of R90 outlived the bound R90 gives for it, `n div 128 + 2` turns; it never
  does. Safe: the model stops. -/
  | absorbBoundExceeded
deriving DecidableEq, Repr

/-- Reasons a step gives an instruction no meaning. -/
inductive Refusal where
  /-- Raised by an arm of `exec` whose instruction has no meaning yet; no arm does. Safe: the model stops. -/
  | notModelled (mnemonic : String)
deriving DecidableEq, Repr

/-- One engine and its two streams. -/
structure State where
  /-- `H[0 .. 7]`, the chained state (R10). -/
  h : Vector Word 8
  /-- `T[0]` (low) and `T[1]` (high), the byte counter (R11). -/
  t : Vector Word 2
  /-- `F[0]` and `F[1]`, the finalization flags (R12). -/
  f : Vector Word 2
  /-- `BUF`, the bytes of the buffer that hold a value (R13). -/
  buf : Memory
  /-- `BUFLEN`, `0 .. 128` (R14; 93_implementation_defined.md U4: a larger value is not representable). -/
  buflen : Fin 129
  /-- `NN`, the digest length (R15). -/
  nn : BitVec 8
  /-- `KK`, the key length (R16). -/
  kk : BitVec 8
  /-- `PHASE` (R17). -/
  phase : Phase
  /-- `V[0 .. 15]`, the scratch working vector (R18). -/
  v : Vector Word 16
  /-- The command stream: what the host has sent and the engine has not yet taken, oldest first (R30, R45). -/
  commands : List HostEvent
  /-- The response stream: every response so far, oldest first (R30, R52). -/
  responses : List Packet
  /-- `ci`, the position in the program: the number of command packets taken (R25). -/
  ci : Nat
  /-- The model's own counter of the resets taken, which the free values of `Config` are applied to. -/
  resets : Nat
deriving DecidableEq, Repr

/-- Right after reset: `PHASE = IDLE` (R27, R120), no byte of `BUF` holds a value, the streams are empty and `ci` is 0 (R25).
The spec gives no value for the other registers; the zeros are the model's choice (notes/assumptions/1.md). -/
def State.reset : State where
  h := Vector.replicate 8 0
  t := Vector.replicate 2 0
  f := Vector.replicate 2 0
  buf := []
  buflen := 0
  nn := 0
  kk := 0
  phase := .idle
  v := Vector.replicate 16 0
  commands := []
  responses := []
  ci := 0
  resets := 0

end Sys2Proof.Machine
end

