-- ==== Sys2Proof/Machine/Ops.lean ====
section
/-! DEFINITION. The named operations over the state: registers, the buffer memory, the two streams, taking an exception, and
the reset. Every meaning is written over these. -/

namespace Sys2Proof.Machine

/-! ### Registers -/

/-- `BUF` replaced. -/
def State.setBuf (s : State) (m : Memory) : State := { s with buf := m }

/-- `BUFLEN <- n`, for `n` in `0 .. 128` (R14); every rule keeps `n` in that range. -/
def State.setBuflen (s : State) (n : Nat) : State := { s with buflen := Fin.ofNat 129 n }

/-- `PHASE <- p` (R17). -/
def State.setPhase (s : State) (p : Phase) : State := { s with phase := p }

/-- The chaining words and the working vector, as a compression leaves them (R80). -/
def State.setChain (s : State) (h : Vector Word 8) (v : Vector Word 16) : State := { s with h := h, v := v }

/-- `INC_T(k)` (R66). -/
def State.incT (s : State) (k : Nat) : State := { s with t := incCounter s.t k }

/-- `F[0] <- ONES64` (R99). -/
def State.markLast (s : State) : State := { s with f := markLastBlock s.f }

/-- The register writes of a successful `INIT` (R86): `H`, `T`, `F`, `BUFLEN`, `NN`, `KK`, `PHASE`; `BUF` and `V` keep
their contents. -/
def State.loadContext (s : State) (nn kk : Byte) : State :=
  { s with
    h := initialChain nn kk
    t := #v[0, 0]
    f := clearedFlags
    buflen := 0
    nn := nn
    kk := kk
    phase := .active }

/-! ### The buffer memory -/

/-- `MemRead(addr, n)` (R31): the `n` bytes from `addr`, lowest address first. -/
def memRead (s : State) (addr n : Nat) : Except Fault (List Byte) :=
  if addr + n ≤ 128 then
    match s.buf.readBytes addr n with
    | some bytes => .ok bytes
    | none => .error (.unwrittenByte addr n)
  else .error (.addressOutOfRange addr n)

/-- `MemWrite(addr, len(bytes), bytes)` (R31). -/
def memWrite (s : State) (addr : Nat) (bytes : List Byte) : Except Fault State :=
  if addr + bytes.length ≤ 128 then .ok (s.setBuf (s.buf.writeBytes addr bytes))
  else .error (.addressOutOfRange addr bytes.length)

/-! ### Responses and exceptions -/

/-- The code of an exception (R53, R106). -/
def Exception.code : Exception → Byte
  | .invalidParameter => 0x01
  | .protocolViolation => 0x02
  | .illegalCommand => 0x03

/-- The status byte of a response (R53). -/
def Status.code : Status → Byte
  | .ok => 0x00
  | .raised e => e.code

/-- The two-bit value of `PHASE` (R17). -/
def Phase.code : Phase → BitVec 2
  | .idle => 0
  | .active => 1
  | .done => 2

/-- One response appended to the response stream: the status byte, then the result bytes (R52). -/
def respond (s : State) (st : Status) (result : List Byte) : State :=
  { s with responses := s.responses ++ [st.code :: result] }

/-- Taking an exception (R112): nothing is saved, no register, mode or memory changes, there is no vector to go to; the
engine answers with the one status byte and is ready for the next packet. There is no return from an exception and
nothing to return to (R114). -/
def takeException (s : State) (e : Exception) : State := respond s (.raised e) []

/-- What the host sees of a response: whether its status is `OK` (R53, R57). -/
def responseOk : Packet → Bool
  | [] => false
  | st :: _ => decide (st = Status.code .ok)

/-- Whether the command the engine answered last was answered `OK` (R57). -/
def lastOk (s : State) : Bool :=
  match s.responses.getLast? with
  | some rsp => responseOk rsp
  | none => false

/-! ### The command stream and the reset -/

/-- How many command packets an event takes from the program: `ci` counts commands, not resets (R25). -/
def HostEvent.commandsTaken : HostEvent → Nat
  | .packet _ => 1
  | .reset none => 0
  | .reset (some _) => 1

/-- The command stream with its first event taken, and `ci` advanced by the commands that event is (R25). -/
def State.consume (s : State) (rest : List HostEvent) (taken : Nat) : State :=
  { s with commands := rest, ci := s.ci + taken }

/-- The next event of the command stream and the state with it taken; `none` when the host has sent nothing and the engine
waits (R45, R120). -/
def fetch (s : State) : Option (HostEvent × State) :=
  match s.commands with
  | [] => none
  | ev :: rest => some (ev, s.consume rest ev.commandsTaken)

/-- The reset (R120): `PHASE <- IDLE`, no response for a command in progress, and every other register and byte of the buffer
unspecified: the registers hold free values of `Config`, and no byte of `BUF` holds a value. DESIGN CHOICE: the free values
depend on `resets` alone, so two engines with equal `resets` hold equal values after it, which the spec (60_exceptions.md
R116, `S_reset`) does not say (notes/assumptions/3.md). -/
def State.takeReset (s : State) : State :=
  { s with
    h := Config.resetH s.resets
    t := Config.resetT s.resets
    f := Config.resetF s.resets
    buf := []
    buflen := Config.resetBuflen s.resets
    nn := Config.resetNn s.resets
    kk := Config.resetKk s.resets
    phase := .idle
    v := Config.resetV s.resets
    resets := s.resets + 1 }

/-- The result of a meaning as the outcome of a step. -/
def finish : Except Fault State → Host.Outcome State Fault Refusal
  | .ok s => .next s
  | .error e => .fault e

end Sys2Proof.Machine
end

