-- ==== Sys2Proof/Machine/Compress.lean ====
section
/-! DEFINITION. The compression function (42_compression.md R75 to R83). -/

namespace Sys2Proof.Machine

/-- Word `i` of a 128-byte block: the little-endian word of bytes `8i .. 8i+7` (R32, R38). -/
def blockWord (block : List Byte) (i : Nat) : Word := load64 ((block.drop (8 * i)).take 8)

/-- The sixteen message words of a block (R19, R76). -/
def blockWords (block : List Byte) : Vector Word 16 :=
  #v[blockWord block 0, blockWord block 1, blockWord block 2, blockWord block 3,
     blockWord block 4, blockWord block 5, blockWord block 6, blockWord block 7,
     blockWord block 8, blockWord block 9, blockWord block 10, blockWord block 11,
     blockWord block 12, blockWord block 13, blockWord block 14, blockWord block 15]

/-- The working vector before the first round (R77). -/
def initialV (h : Vector Word 8) (t f : Vector Word 2) : Vector Word 16 :=
  #v[h[0], h[1], h[2], h[3], h[4], h[5], h[6], h[7],
     iv[0], iv[1], iv[2], iv[3],
     xor64 t[0] iv[4], xor64 t[1] iv[5], xor64 f[0] iv[6], xor64 f[1] iv[7]]

/-- Application `i` of round `r`: `G` on index group `i` with message words `SIGMA[r][2i]` and `SIGMA[r][2i+1]` (R78). -/
def applyG (m : Vector Word 16) (r : Fin 12) (v : Vector Word 16) (i : Fin 8) : Vector Word 16 :=
  mixG v gidx[i].1 gidx[i].2.1 gidx[i].2.2.1 gidx[i].2.2.2
    m[sigma[r][2 * i.val]] m[sigma[r][2 * i.val + 1]]

/-- `ROUND(r)`: the eight applications in order (R78). -/
def applyRound (m : Vector Word 16) (v : Vector Word 16) (r : Fin 12) : Vector Word 16 :=
  ([0, 1, 2, 3, 4, 5, 6, 7] : List (Fin 8)).foldl (applyG m r) v

/-- The twelve rounds in order (R79). -/
def rounds (m : Vector Word 16) (v : Vector Word 16) : Vector Word 16 :=
  ([0, 1, 2, 3, 4, 5, 6, 7, 8, 9, 10, 11] : List (Fin 12)).foldl (applyRound m) v

/-- The feed-forward: `H[i] xor V[i] xor V[i+8]` (R80). -/
def feedForward (h : Vector Word 8) (v : Vector Word 16) : Vector Word 8 :=
  #v[xor64 h[0] (xor64 v[0] v[8]), xor64 h[1] (xor64 v[1] v[9]),
     xor64 h[2] (xor64 v[2] v[10]), xor64 h[3] (xor64 v[3] v[11]),
     xor64 h[4] (xor64 v[4] v[12]), xor64 h[5] (xor64 v[5] v[13]),
     xor64 h[6] (xor64 v[6] v[14]), xor64 h[7] (xor64 v[7] v[15])]

/-- The working vector after the last round, from the chaining words, counter, flags and block (R81). -/
def finalV (h : Vector Word 8) (t f : Vector Word 2) (block : List Byte) : Vector Word 16 :=
  rounds (blockWords block) (initialV h t f)

/-- The new chaining words: the deterministic function `(H, block, T, F) -> H'` of R81. -/
def compressBlock (h : Vector Word 8) (t f : Vector Word 2) (block : List Byte) : Vector Word 8 :=
  feedForward h (finalV h t f block)

/-- `COMPRESS` (R75): reads `H`, all 128 bytes of `BUF`, `T` and `F`; writes `H` and the scratch `V`. -/
def compress (s : State) : Except Fault State :=
  match memRead s 0 128 with
  | .ok block => .ok (s.setChain (compressBlock s.h s.t s.f block) (finalV s.h s.t s.f block))
  | .error e => .error e

end Sys2Proof.Machine
end

