-- ==== Sys2Proof/Machine/Final.lean ====
section
/-! DEFINITION. The `FINAL` command (45_final_and_hash.md R98 to R101, R105). -/

namespace Sys2Proof.Machine

/-- The last compression: count the buffered bytes, set the last-block flag, pad with zeros, compress, in that order (R99). -/
def compressLast (s : State) : Except Fault State :=
  match memWrite (s.incT s.buflen.val).markLast s.buflen.val (zeros (128 - s.buflen.val)) with
  | .error e => .error e
  | .ok s1 => compress s1

/-- `FINAL`: the phase check (R98), the last compression (R99), the digest (R100), the phase and the answer (R98). -/
def finalCommand (s : State) : Except Fault State :=
  if s.phase = .active then
    match compressLast s with
    | .error e => .error e
    | .ok s1 => .ok (respond (s1.setPhase .done) .ok (digest s1.nn s1.h))
  else .ok (takeException s .protocolViolation)

/-- The meaning of `FINAL` (R98). -/
def execFinal (s : State) : Host.Outcome State Fault Refusal :=
  finish (finalCommand s)

end Sys2Proof.Machine
end

