-- ==== Sys2Proof/Machine/Absorb.lean ====
section
/-! DEFINITION. The buffering discipline (44_update.md R90). -/

namespace Sys2Proof.Machine

/-- The free room in the buffer, `0 .. 128` (R90). -/
abbrev freeRoom (s : State) : Nat := 128 - s.buflen.val

/-- The first branch of R90's loop: fill the buffer, count the block, compress it, empty the buffer, in that order. -/
def completeBlock (chunk : List Byte) (s : State) : Except Fault State :=
  match memWrite s s.buflen.val chunk with
  | .error e => .error e
  | .ok s1 =>
    match compress ((s1.setBuflen 128).incT 128) with
    | .error e => .error e
    | .ok s2 => .ok (s2.setBuflen 0)

/-- The other branch: everything left fits and is kept buffered (R90). -/
def bufferRest (rest : List Byte) (s : State) : Except Fault State :=
  match memWrite s s.buflen.val rest with
  | .error e => .error e
  | .ok s1 => .ok (s1.setBuflen (s.buflen.val + rest.length))

/-- The loop of R90, at most `turns` turns of it, on the bytes not yet taken. -/
def absorbLoop : Nat → List Byte → State → Except Fault State
  | 0, rest, s => if rest = [] then .ok s else .error .absorbBoundExceeded
  | turns + 1, rest, s =>
    if rest = [] then .ok s
    else if rest.length > freeRoom s then
      match completeBlock (rest.take (freeRoom s)) s with
      | .error e => .error e
      | .ok s1 => absorbLoop turns (rest.drop (freeRoom s)) s1
    else
      match bufferRest rest s with
      | .error e => .error e
      | .ok s1 => absorbLoop turns [] s1

/-- `ABSORB(data)` (R90). The loop runs at most `n div 128 + 2` turns (R90, R128). -/
def absorb (data : List Byte) (s : State) : Except Fault State :=
  absorbLoop (data.length / 128 + 2) data s

end Sys2Proof.Machine
end

