-- ==== Sys2Proof/Machine/Init.lean ====
section
/-! DEFINITION. The `INIT` command (43_init.md R85 to R89). -/

namespace Sys2Proof.Machine

/-- The key block absorbed, when there is a key (R87). -/
def absorbKey (key : List Byte) (s : State) : Except Fault State :=
  if keyLength key > 0 then absorb (keyBlock key) s else .ok s

/-- `INIT nn, key`: the checks before any write (R85), then the context (R86), the key (R87) and the answer (R88). It is
accepted in every phase. -/
def initCommand (nn : Byte) (key : List Byte) (s : State) : Except Fault State :=
  if initOperandsLegal nn key then
    match absorbKey key (s.loadContext nn (BitVec.ofNat 8 (keyLength key))) with
    | .error e => .error e
    | .ok s1 => .ok (respond s1 .ok [])
  else .ok (takeException s .invalidParameter)

/-- The meaning of `INIT` (R85 to R88). -/
def execInit (nn : Byte) (key : List Byte) (s : State) : Host.Outcome State Fault Refusal :=
  finish (initCommand nn key s)

end Sys2Proof.Machine
end

