-- ==== Sys2Proof/Machine/Update.lean ====
section
/-! DEFINITION. The `UPDATE` command (44_update.md R91 to R96). -/

namespace Sys2Proof.Machine

/-- `UPDATE data`: the phase check, the bytes absorbed, the answer (R91). -/
def updateCommand (data : List Byte) (s : State) : Except Fault State :=
  if s.phase = .active then
    match absorb data s with
    | .error e => .error e
    | .ok s1 => .ok (respond s1 .ok [])
  else .ok (takeException s .protocolViolation)

/-- The meaning of `UPDATE` (R91). -/
def execUpdate (data : List Byte) (s : State) : Host.Outcome State Fault Refusal :=
  finish (updateCommand data s)

end Sys2Proof.Machine
end

