-- ==== Sys2Proof/Machine/Hash.lean ====
section
/-! DEFINITION. The pseudo-instruction `HASH` (30_encoding.md R57, 45_final_and_hash.md R102): the three commands the host
sends one after the other, each only after the one before was answered `OK`. -/

namespace Sys2Proof.Machine

/-- The host's next command, issued only when the last answer was `OK` (R57). -/
def thenIfOk (r : Except Fault State) (next : State → Except Fault State) : Except Fault State :=
  match r with
  | .error e => .error e
  | .ok s => if lastOk s then next s else .ok s

/-- `HASH nn, data`: `INIT nn`; `UPDATE data`; `FINAL`, stopping at the first answer that is not `OK` (R57, R102). -/
def hashCommand (nn : Byte) (data : List Byte) (s : State) : Except Fault State :=
  thenIfOk (thenIfOk (initCommand nn [] s) (updateCommand data)) finalCommand

/-- The meaning of `HASH` (R102). -/
def execHash (nn : Byte) (data : List Byte) (s : State) : Host.Outcome State Fault Refusal :=
  finish (hashCommand nn data s)

end Sys2Proof.Machine
end

