-- ==== Sys2Proof/Machine/Dispatch.lean ====
section
/-! DEFINITION. One arm per constructor of `Instr`, each one call of that instruction's meaning. -/

namespace Sys2Proof.Machine

def exec (i : Instr) (s : State) : Host.Outcome State Fault Refusal :=
  match i with
  | .init nn key => Sys2Proof.Machine.execInit nn key s
  | .update data => Sys2Proof.Machine.execUpdate data s
  | .final => Sys2Proof.Machine.execFinal s
  | .hash nn data => Sys2Proof.Machine.execHash nn data s

end Sys2Proof.Machine
end

