-- ==== Sys2Proof/Machine/Step.lean ====
section
/-! DEFINITION. One step: the engine takes the next thing the host sent and handles it to completion (00_scope.md R4). -/

namespace Sys2Proof.Machine

/-- One step. With nothing sent the engine waits and nothing changes (70_reset_and_hazards.md R120). A reset is taken (R120). A
packet is decoded before anything else (60_exceptions.md R113); an illegal one raises `IllegalCommand` (R109), a legal
one is executed. -/
def step (s : State) : Host.Outcome State Fault Refusal :=
  match fetch s with
  | none => .next s
  | some (.reset _, s1) => .next s1.takeReset
  | some (.packet p, s1) =>
    match decode p with
    | .error _ => .next (takeException s1 .illegalCommand)
    | .ok i => exec i s1

/-- `s` with the packet of an opcode-table word put first in the command stream, where the next step takes it. -/
def State.withFetchWord (s : State) (nbits w : Nat) : State :=
  { s with commands := .packet (tablePacket nbits w) :: s.commands }

end Sys2Proof.Machine
end

