-- ==== Sys2Proof/Machine/Assembler.lean ====
section
/-! DEFINITION. The textual form of a program, one command a line (30_encoding.md R56), read into the packets the host sends.
Text is a list of characters. The tables of notes/assumptions/10.md say how the points R56 leaves open are read. -/

namespace Sys2Proof.Machine

/-- The pieces a line is made of. -/
inductive Token where
  | word (chars : List Char)
  | str (chars : List Char)
  | comma
  | equals
  | lparen
  | rparen
  | concat
deriving DecidableEq, Repr

/-- What the reader of a line is inside of. -/
inductive LexMode where
  | plain
  | inWord (acc : List Char)
  | inString (acc : List Char)
  | inComment
deriving DecidableEq, Repr

/-- A line as the host reads it: an instruction, or the bytes of a `.raw` packet. -/
inductive AsmLine where
  | instr (i : Instr)
  | raw (bytes : List Byte)
deriving DecidableEq, Repr

/-- The characters of mnemonics, numbers and names. -/
def isWordChar (c : Char) : Bool := c.isAlphanum || c == '.'

/-- One character read outside words, strings and comments. -/
def lexPlain (c : Char) : Option (List Token × LexMode) :=
  if c = ' ' ∨ c = '\t' then some ([], .plain)
  else if c = ';' then some ([], .inComment)
  else if c = '"' then some ([], .inString [])
  else if c = ',' then some ([.comma], .plain)
  else if c = '=' then some ([.equals], .plain)
  else if c = '(' then some ([.lparen], .plain)
  else if c = ')' then some ([.rparen], .plain)
  else if c = '‖' then some ([.concat], .plain)
  else if isWordChar c then some ([], .inWord [c])
  else none

/-- One character read in a mode: the tokens it ends and the mode after it. -/
def lexChar : LexMode → Char → Option (List Token × LexMode)
  | .plain, c => lexPlain c
  | .inComment, _ => some ([], .inComment)
  | .inString acc, c => if c = '"' then some ([.str acc.reverse], .plain) else some ([], .inString (c :: acc))
  | .inWord acc, c =>
    if isWordChar c then some ([], .inWord (c :: acc))
    else (lexPlain c).map fun r => (.word acc.reverse :: r.1, r.2)

/-- The tokens of a line; `none` if a character stands where none may or a string is not closed. -/
def lexFrom : LexMode → List Char → Option (List Token)
  | .plain, [] => some []
  | .inComment, [] => some []
  | .inWord acc, [] => some [.word acc.reverse]
  | .inString _, [] => none
  | mode, c :: cs =>
    match lexChar mode c with
    | none => none
    | some (ts, mode1) => (lexFrom mode1 cs).map (ts ++ ·)

/-- The value of a decimal numeral. -/
def decimal (chars : List Char) : Option Nat :=
  if chars ≠ [] ∧ chars.all Char.isDigit then
    some (chars.foldl (fun n c => 10 * n + (c.toNat - '0'.toNat)) 0)
  else none

/-- `<n>`: a decimal number `0 .. 255` (R56). -/
def decimalByte (chars : List Char) : Option Byte :=
  match decimal chars with
  | some n => if n ≤ 255 then some (BitVec.ofNat 8 n) else none
  | none => none

/-- The value of a hexadecimal digit. -/
def hexDigit (c : Char) : Option Nat :=
  if c.isDigit then some (c.toNat - '0'.toNat)
  else if 'a' ≤ c ∧ c ≤ 'f' then some (c.toNat - 'a'.toNat + 10)
  else if 'A' ≤ c ∧ c ≤ 'F' then some (c.toNat - 'A'.toNat + 10)
  else none

/-- A hexadecimal string: two digits a byte, in transmission order (R56). -/
def hexBytes : List Char → Option (List Byte)
  | [] => some []
  | [_] => none
  | a :: b :: rest =>
    match hexDigit a, hexDigit b, hexBytes rest with
    | some x, some y, some bs => some (BitVec.ofNat 8 (16 * x + y) :: bs)
    | _, _, _ => none

/-- An ASCII string: one byte a character, no terminator (R56). -/
def asciiBytes (chars : List Char) : Option (List Byte) :=
  if chars.all (fun c => c.toNat < 128) then some (chars.map fun c => BitVec.ofNat 8 c.toNat) else none

/-- `seq(first, count)`: the bytes `first, first+1, ...` modulo 256 (R56). -/
def seqBytes (first count : Nat) : List Byte := (List.range count).map fun k => BitVec.ofNat 8 (first + k)

/-- One operand of the concatenation `‖`, and the tokens after it (R56). -/
def parseTerm : List Token → Option (List Byte × List Token)
  | .str s :: rest => (asciiBytes s).map (·, rest)
  | .word w :: .str s :: rest => if w = ['x'] then (hexBytes s).map (·, rest) else none
  | .word w :: .lparen :: .word n :: .rparen :: rest =>
    if w = ['z', 'e', 'r', 'o', 's'] then (decimal n).map (fun k => (zeros k, rest)) else none
  | .word w :: .lparen :: .word a :: .comma :: .word n :: .rparen :: rest =>
    if w = ['s', 'e', 'q'] then
      match decimal a, decimal n with
      | some x, some k => some (seqBytes x k, rest)
      | _, _ => none
    else none
  | _ => none

/-- `<bytes>`: operands joined by `‖`, at most `terms` of them (R56). -/
def parseBytes : Nat → List Token → Option (List Byte)
  | 0, _ => none
  | terms + 1, ts =>
    match parseTerm ts with
    | some (bs, []) => some bs
    | some (bs, .concat :: rest) => (parseBytes terms rest).map (bs ++ ·)
    | _ => none

/-- A whole operand list read as `<bytes>`. -/
def bytesOperand (ts : List Token) : Option (List Byte) := parseBytes ts.length ts

/-- The operands of `INIT`: `<n>`, or `<n>, key=<bytes>` (R56). -/
def parseInit : List Token → Option AsmLine
  | [.word n] => (decimalByte n).map fun nn => .instr (.init nn [])
  | .word n :: .comma :: .word k :: .equals :: ts =>
    if k = ['k', 'e', 'y'] then
      match decimalByte n, bytesOperand ts with
      | some nn, some key => some (.instr (.init nn key))
      | _, _ => none
    else none
  | _ => none

/-- The operands of `UPDATE`: none, or `<bytes>` (R56). -/
def parseUpdate : List Token → Option AsmLine
  | [] => some (.instr (.update []))
  | ts => (bytesOperand ts).map fun data => .instr (.update data)

/-- The operands of `HASH`: `<n>, <bytes>` (R56). -/
def parseHash : List Token → Option AsmLine
  | .word n :: .comma :: ts =>
    match decimalByte n, bytesOperand ts with
    | some nn, some data => some (.instr (.hash nn data))
    | _, _ => none
  | _ => none

/-- A line's tokens read as a command; `some none` for a line with nothing but a comment (R56). -/
def parseTokens : List Token → Option (Option AsmLine)
  | [] => some none
  | .word w :: ts =>
    if w = ['I', 'N', 'I', 'T'] then (parseInit ts).map some
    else if w = ['U', 'P', 'D', 'A', 'T', 'E'] then (parseUpdate ts).map some
    else if w = ['F', 'I', 'N', 'A', 'L'] then (if ts = [] then some (some (.instr .final)) else none)
    else if w = ['H', 'A', 'S', 'H'] then (parseHash ts).map some
    else if w = ['.', 'r', 'a', 'w'] then (bytesOperand ts).map fun bs => some (.raw bs)
    else none
  | _ => none

/-- The packets a line stands for (R56, R57); `none` if the line is not of the form of R56. -/
def assembleLine (line : List Char) : Option (List Packet) :=
  match lexFrom .plain line with
  | none => none
  | some ts =>
    match parseTokens ts with
    | none => none
    | some none => some []
    | some (some (.instr i)) => some (packetsOf i)
    | some (some (.raw bs)) => some [bs]

end Sys2Proof.Machine
end

