-- ==== Sys2Proof/Machine/Run.lean ====
section
/-! DEFINITION. A run of a program, a finite list of packets (70_reset_and_hazards.md R130, 10_state.md R25), and several
engines side by side (60_exceptions.md R116). -/

namespace Sys2Proof.Machine

/-- The state with a program put in the command stream: `ci` starts at 0 (R25) and no response has been given yet. -/
def State.loadProgram (s : State) (prog : List Packet) : State :=
  { s with commands := prog.map .packet, responses := [], ci := 0 }

/-- The run of a program from an engine state: each packet decoded and executed in order (R130). -/
def runProgram (prog : List Packet) (s : State) : Host.Outcome State Fault Refusal :=
  Host.Core.run Sys2Proof.core prog.length (s.loadProgram prog)

/-- The observable result of a run: the list of responses (R130). -/
def observed : Host.Outcome State Fault Refusal → Option (List Packet)
  | .next s => some s.responses
  | .fault _ => none
  | .refused _ => none

/-- Any number of engines, each with its own state and its own streams (R116). The values a reset leaves in two engines are
related only as notes/assumptions/3.md says, by the model's choice. -/
abbrev System := List State

/-- One step of engine `k` of a system; the others keep their state. -/
def System.stepEngine (sys : System) (k : Nat) : Option System :=
  match sys[k]? with
  | none => none
  | some s =>
    match step s with
    | .next s1 => some (sys.set k s1)
    | .fault _ => none
    | .refused _ => none

end Sys2Proof.Machine
end

