-- ==== Sys2Proof/Safety.lean ====
section
/-! DEFINITION. What claims are stated in: the invariant of the engine (10_state.md R28), what two states must agree on to be
the same to the host (R13, R18, R27), the digest as a function of its operands (44_update.md R95, 45_final_and_hash.md
R99, R100, R103), and a safe run. -/

namespace Sys2Proof.Machine

/-! ### The invariant -/

/-- The valid bytes `BUF[0] .. BUF[BUFLEN-1]` hold values (R13). -/
abbrev State.validWritten (s : State) : Prop :=
  ∀ a, a < s.buflen.val → (s.buf.read a).isSome = true

/-- R28 items 1 and 3: the operands of a context are in range and the reserved flag word is zero. -/
abbrev State.contextLegal (s : State) : Prop :=
  1 ≤ s.nn.toNat ∧ s.nn.toNat ≤ 64 ∧ s.kk.toNat ≤ 64 ∧ s.f[1] = 0

/-- R28 items 4, 5 and 6 while `ACTIVE`: the last-block flag is clear, the counter is a multiple of the block size, the valid
bytes are written, and an empty buffer means that nothing has been absorbed since `INIT`. -/
abbrev State.activeLegal (s : State) : Prop :=
  s.f[0] = 0 ∧ s.t[0].toNat % 128 = 0 ∧ s.validWritten ∧
  (s.buflen.val = 0 → s.t = #v[0, 0] ∧ s.kk = 0 ∧ s.h = initialChain s.nn s.kk)

/-- The invariant of R28, with the canonical form of `BUF`. -/
abbrev State.Inv (s : State) : Prop :=
  s.buf.wf = true ∧
  (s.phase ≠ .idle → s.contextLegal) ∧
  (s.phase = .active → s.activeLegal) ∧
  (s.phase = .done → s.f[0] = ones64)

/-! ### What the host can tell apart -/

/-- Two states agree on everything that can reach a response: the streams and the phase always, and while `ACTIVE` the
chaining words, counter, flags, fill count, digest length and valid bytes. They need not agree on `V`, on `KK`, on stale
bytes of `BUF`, or on anything but the phase while no context is active (R13, R16, R18, R27, R101). -/
abbrev State.agree (s u : State) : Prop :=
  s.commands = u.commands ∧ s.responses = u.responses ∧ s.phase = u.phase ∧
  (s.phase = .active →
    s.h = u.h ∧ s.t = u.t ∧ s.f = u.f ∧ s.buflen = u.buflen ∧ s.nn = u.nn ∧
    ∀ a, a < s.buflen.val → s.buf.read a = u.buf.read a)

/-! ### The digest as a function -/

/-- The two counter words of a byte count, modulo `2^128` (R11, R66). -/
def counterWords (n : Nat) : Vector Word 2 := #v[BitVec.ofNat 64 n, BitVec.ofNat 64 (n / 2 ^ 64)]

/-- The bytes of one block of an input string (R95). -/
def blockAt (input : List Byte) (j : Nat) : List Byte := (input.drop (128 * j)).take 128

/-- The chaining words after `c` blocks of an input compressed in order from the words `h`, the byte count standing at `start`
before them and the flags at `f`: block `j` is compressed with the count that includes it (R90, R95). -/
def chainFrom (h : Vector Word 8) (start : Nat) (f : Vector Word 2) (input : List Byte) : Nat → Vector Word 8
  | 0 => h
  | c + 1 =>
    compressBlock (chainFrom h start f input c) (counterWords (start + 128 * (c + 1))) f (blockAt input c)

/-- How many blocks of an input of `n` bytes are compressed before `FINAL`: none for 0, else `(n - 1) div 128` (R95). -/
def blocksBefore (n : Nat) : Nat := (n - 1) / 128

/-- All the bytes a context absorbs: the key block first when there is a key, then the data (R87, R95). -/
def absorbedInput (key data : List Byte) : List Byte :=
  if key = [] then data else keyBlock key ++ data

/-- The digest of an input from given chaining words: the last block padded, counted and flagged (R99, R100). -/
def digestFrom (h : Vector Word 8) (nn : Byte) (input : List Byte) : List Byte :=
  let c := blocksBefore input.length
  let rest := input.drop (128 * c)
  digest nn (compressBlock (chainFrom h 0 clearedFlags input c) (counterWords input.length) (markLastBlock clearedFlags)
    (rest ++ zeros (128 - rest.length)))

/-- The hash function the engine computes, as a function of digest length, key and data (R1, R103). -/
def blake2b (nn : Byte) (key data : List Byte) : List Byte :=
  digestFrom (initialChain nn (BitVec.ofNat 8 key.length)) nn (absorbedInput key data)

/-! ### Safe runs -/

/-- A run is safe when it neither faults nor is refused. -/
def safeOutcome : Host.Outcome State Fault Refusal → Bool
  | .next _ => true
  | .fault _ => false
  | .refused _ => false

/-- A packet is illegal when it decodes to no command (30_encoding.md R51). -/
def illegalPacket (p : Packet) : Bool :=
  match decode p with
  | .error _ => true
  | .ok _ => false

end Sys2Proof.Machine
end

