-- ==== Sys2Proof/Certificates/Slice0/Obligations.lean ====
section
/-! DEFINITION. The statements for the provers, from the spec's numbered rules. Each docstring names the rule or the section it
formalises. Where a clause rests on a choice of the model, the docstring names the log entry. -/

open Sys2Proof Sys2Proof.Machine

/-! ### Encoding -/

/-- 30_encoding.md R51, R54: the opcode map, row by row, the reserved and illegal rows among them. -/
def Obligations.DecoderFollowsTheOpcodeMap : Prop :=
  (∀ p : Packet, p.length < 2 → illegalPacket p = true) ∧
  ∀ (opc arg : Byte) (pay : List Byte),
    (opc = 0x01 → decode (opc :: arg :: pay) = .ok (.init arg pay)) ∧
    (opc = 0x02 → arg = 0x00 → decode (opc :: arg :: pay) = .ok (.update pay)) ∧
    (opc = 0x02 → arg ≠ 0x00 → illegalPacket (opc :: arg :: pay) = true) ∧
    (opc = 0x03 → arg = 0x00 → pay = [] → decode (opc :: arg :: pay) = .ok .final) ∧
    (opc = 0x03 → arg = 0x00 → pay ≠ [] → illegalPacket (opc :: arg :: pay) = true) ∧
    (opc = 0x03 → arg ≠ 0x00 → illegalPacket (opc :: arg :: pay) = true) ∧
    (opc ≠ 0x01 → opc ≠ 0x02 → opc ≠ 0x03 → illegalPacket (opc :: arg :: pay) = true)

/-- 30_encoding.md section 4 (R55, which the spec derives from R54): decoding an encoded command gives it back with every
operand, and a packet that decodes is the encoding of what it decodes to. `HASH` has no packet (R57). -/
def Obligations.DecodeAndEncodeAgree : Prop :=
  (∀ i : Instr, i.wellFormed = true → ∃ p, encode i = some p ∧ decode p = .ok i) ∧
  (∀ (p : Packet) (i : Instr), decode p = .ok i → i.wellFormed = true ∧ encode i = some p)

/-- 30_encoding.md R46 to R49 and spec/opcode_table.json: the header as one number, and each command's `match` under its
`mask`. -/
def Obligations.HeaderMaskSelectsTheCommand : Prop :=
  ∀ (opc arg : Byte) (pay : List Byte),
    (header opc arg).toNat = opc.toNat + 256 * arg.toNat ∧
    (decode (opc :: arg :: pay) = .ok (.init arg pay) ↔ header opc arg &&& 0x00FF = 0x0001) ∧
    (decode (opc :: arg :: pay) = .ok (.update pay) ↔ header opc arg &&& 0xFFFF = 0x0002) ∧
    (decode (opc :: arg :: pay) = .ok .final ↔ header opc arg &&& 0xFFFF = 0x0003 ∧ pay = [])

/-- 95_test_vectors.md V-E and V-I: packets written out from the spec decode to the commands they stand for. -/
def Obligations.WrittenOutPacketsDecode : Prop :=
  decode [0x01, 0x40] = .ok (.init 64 []) ∧
  decode [0x01, 0x14, 0x6b, 0x65, 0x79] = .ok (.init 20 [0x6b, 0x65, 0x79]) ∧
  decode [0x02, 0x00] = .ok (.update []) ∧
  decode [0x02, 0x00, 0x61, 0x62, 0x63] = .ok (.update [0x61, 0x62, 0x63]) ∧
  decode [0x03, 0x00] = .ok .final ∧
  ([[], [0x01], [0x02], [0x00, 0x00], [0x04, 0x00], [0xff, 0x00], [0x02, 0x01, 0x61], [0x03, 0x00, 0xaa],
    [0x03, 0x01]] : List Packet).all illegalPacket = true

/-- spec/opcode_table.json rows `INIT`, `UPDATE`, `FINAL` (that a row's word has an empty payload is the model's reading,
notes/assumptions/9.md): the table's words decode to the row's instruction, `INIT` at every argument byte. -/
def Obligations.TableWordsDecode : Prop :=
  (∀ nn : Byte, decodeTableWord 16 (0x0001 + 256 * nn.toNat) = some (.init nn [])) ∧
  decodeTableWord 16 0x0002 = some (.update []) ∧
  decodeTableWord 16 0x0003 = some .final

/-! ### Word arithmetic -/

/-- 40_word_arithmetic.md R61 and R62: `ADD64` is addition modulo `2^64`, `XOR64` is exclusive or bit by bit. -/
def Obligations.AddAndXorOfWords : Prop :=
  ∀ a b c : Word,
    (add64 a b).toNat = (a.toNat + b.toNat) % 2 ^ 64 ∧
    add64 a 0 = a ∧ add64 a b = add64 b a ∧ add64 (add64 a b) c = add64 a (add64 b c) ∧
    (∀ k, k < 64 → (xor64 a b).getLsbD k = (a.getLsbD k ^^ b.getLsbD k)) ∧
    xor64 a 0 = a ∧ xor64 a a = 0 ∧ xor64 a ones64 = ~~~a

/-- 40_word_arithmetic.md R63: the rotation by its two shifts and bit by bit, with the amounts 0, 64 and 63. -/
def Obligations.RotationMovesEachBit : Prop :=
  ∀ (w : Word) (n : Nat),
    (n % 64 ≠ 0 → (rotr64 w n).toNat = (w.toNat / 2 ^ (n % 64) + w.toNat * 2 ^ (64 - n % 64)) % 2 ^ 64) ∧
    (n % 64 = 0 → rotr64 w n = w) ∧
    (∀ k, k < 64 → (rotr64 w n).getLsbD k = w.getLsbD ((k + n % 64) % 64)) ∧
    rotr64 w 0 = w ∧ rotr64 w 64 = w ∧ rotr64 w 63 = w.rotateLeft 1

/-- 40_word_arithmetic.md R64 and R65: the little-endian conversions, byte by byte, and that each undoes the other. -/
def Obligations.LoadAndStoreAreInverse : Prop :=
  (∀ b0 b1 b2 b3 b4 b5 b6 b7 : Byte,
    (load64 [b0, b1, b2, b3, b4, b5, b6, b7]).toNat =
      b0.toNat + 2 ^ 8 * b1.toNat + 2 ^ 16 * b2.toNat + 2 ^ 24 * b3.toNat + 2 ^ 32 * b4.toNat +
      2 ^ 40 * b5.toNat + 2 ^ 48 * b6.toNat + 2 ^ 56 * b7.toNat) ∧
  (∀ (w : Word) (k : Nat), k < 8 → ((store64 w)[k]?).map BitVec.toNat = some (w.toNat / 2 ^ (8 * k) % 256)) ∧
  (∀ w : Word, (store64 w).length = 8 ∧ load64 (store64 w) = w) ∧
  (∀ s : List Byte, s.length = 8 → store64 (load64 s) = s)

/-- 40_word_arithmetic.md R66: `INC_T` by the comparison of the rule and as one sum modulo `2^128`; it writes nothing but
`T`. -/
def Obligations.CounterIncrementCarries : Prop :=
  ∀ (s : State) (k : Nat), k ≤ 128 →
    (s.incT k).t[0] = add64 s.t[0] (BitVec.ofNat 64 k) ∧
    (s.incT k).t[1] = (if (s.incT k).t[0].toNat < k then add64 s.t[1] 1 else s.t[1]) ∧
    counterValue (s.incT k).t = (counterValue s.t + k) % 2 ^ 128 ∧
    s.incT k = { s with t := (s.incT k).t } ∧
    s.incT 0 = s

/-! ### The mixer and the compression -/

/-- 41_mixer_g.md R70: the eight steps of `G` on four different words, and no other word touched. -/
def Obligations.MixerFollowsItsEightSteps : Prop :=
  ∀ (v : Vector Word 16) (a b c d : Fin 16) (x y : Word), [a, b, c, d].Nodup →
    let a1 := add64 (add64 v[a] v[b]) x
    let d1 := rotr64 (xor64 v[d] a1) 32
    let c1 := add64 v[c] d1
    let b1 := rotr64 (xor64 v[b] c1) 24
    let a2 := add64 (add64 a1 b1) y
    let d2 := rotr64 (xor64 d1 a2) 16
    let c2 := add64 c1 d2
    let b2 := rotr64 (xor64 b1 c2) 63
    (mixG v a b c d x y)[a] = a2 ∧ (mixG v a b c d x y)[b] = b2 ∧
    (mixG v a b c d x y)[c] = c2 ∧ (mixG v a b c d x y)[d] = d2 ∧
    ∀ j : Fin 16, j ∉ [a, b, c, d] → (mixG v a b c d x y)[j] = v[j]

/-- 41_mixer_g.md (R71 (d), which the spec derives from R70): for fixed message words `G` is a bijection; (a) zero is a fixed
point. -/
def Obligations.MixerIsInvertible : Prop :=
  ∀ (a b c d : Fin 16) (x y : Word), [a, b, c, d].Nodup →
    Function.Bijective (fun v => mixG v a b c d x y) ∧
    mixG (Vector.replicate 16 0) a b c d 0 0 = Vector.replicate 16 0

/-- 41_mixer_g.md (R73, which the spec derives from R70): applications on disjoint groups may be executed in either order. -/
def Obligations.MixerCommutesOnDisjointGroups : Prop :=
  ∀ (v : Vector Word 16) (a b c d a' b' c' d' : Fin 16) (x y x' y' : Word),
    [a, b, c, d, a', b', c', d'].Nodup →
    mixG (mixG v a b c d x y) a' b' c' d' x' y' = mixG (mixG v a' b' c' d' x' y') a b c d x y

/-- 42_compression.md (R82, which the spec derives): the four column applications of a round in any order, then the four diagonal
ones in any order, give what the rule's order gives. -/
def Obligations.RoundAllowsAnyColumnAndDiagonalOrder : Prop :=
  ∀ (m v : Vector Word 16) (r : Fin 12) (columns diagonals : List (Fin 8)),
    columns.Perm [0, 1, 2, 3] → diagonals.Perm [4, 5, 6, 7] →
    (columns ++ diagonals).foldl (applyG m r) v = applyRound m v r

/-- 10_state.md R21 and R22 (the values are the spec's, from general knowledge, notes/assumptions/8.md): every row of `SIGMA` is
a permutation and the last two rows repeat the first two; the columns and the diagonals of `GIDX` each cover all words once. -/
def Obligations.ScheduleTablesAreWellFormed : Prop :=
  (∀ r : Fin 12, (sigma[r]).toList.Nodup) ∧
  sigma[10] = sigma[0] ∧ sigma[11] = sigma[1] ∧
  (([0, 1, 2, 3] : List (Fin 8)).flatMap fun i => [gidx[i].1, gidx[i].2.1, gidx[i].2.2.1, gidx[i].2.2.2]).Nodup ∧
  (([4, 5, 6, 7] : List (Fin 8)).flatMap fun i => [gidx[i].1, gidx[i].2.1, gidx[i].2.2.1, gidx[i].2.2.2]).Nodup

/-- 42_compression.md R77: the working vector before the first round, word by word. -/
def Obligations.WorkingVectorStartsFromTheRuleTable : Prop :=
  ∀ (h : Vector Word 8) (t f : Vector Word 2),
    (∀ i : Fin 8, (initialV h t f)[i.val] = h[i]) ∧
    (∀ i : Fin 4, (initialV h t f)[8 + i.val] = iv[i.val]) ∧
    (initialV h t f)[12] = xor64 t[0] iv[4] ∧ (initialV h t f)[13] = xor64 t[1] iv[5] ∧
    (initialV h t f)[14] = xor64 f[0] iv[6] ∧ (initialV h t f)[15] = xor64 f[1] iv[7]

/-- 42_compression.md R76 and 20_memory.md R32: message word `i` is the little-endian word read at address `8 * i`, and byte
`j` of the block is byte `j mod 8` of word `j div 8`. -/
def Obligations.MessageWordsAreLittleEndian : Prop :=
  ∀ (s : State) (block : List Byte), memRead s 0 128 = .ok block →
    (∀ i : Fin 16, ∃ bytes, memRead s (8 * i.val) 8 = .ok bytes ∧ (blockWords block)[i] = load64 bytes) ∧
    (∀ j : Fin 128, block[j.val]? = some (byteOf (blockWords block)[j.val / 8] (j.val % 8)))

/-- 42_compression.md R78 and R79: a round is its eight applications written out, and the rounds are the twelve in order. -/
def Obligations.RoundsAreWrittenOut : Prop :=
  ∀ m v : Vector Word 16,
    (∀ r : Fin 12, applyRound m v r =
      let s := fun j : Fin 16 => m[sigma[r][j]]
      let v0 := mixG v 0 4 8 12 (s 0) (s 1)
      let v1 := mixG v0 1 5 9 13 (s 2) (s 3)
      let v2 := mixG v1 2 6 10 14 (s 4) (s 5)
      let v3 := mixG v2 3 7 11 15 (s 6) (s 7)
      let v4 := mixG v3 0 5 10 15 (s 8) (s 9)
      let v5 := mixG v4 1 6 11 12 (s 10) (s 11)
      let v6 := mixG v5 2 7 8 13 (s 12) (s 13)
      mixG v6 3 4 9 14 (s 14) (s 15)) ∧
    rounds m v = (List.finRange 12).foldl (applyRound m) v

/-- 42_compression.md R75, R80 and R81: where the 128 bytes of `BUF` can be read, `COMPRESS` feeds the working vector forward into
`H`, leaves the working vector in the scratch `V` (kept by the model's choice, notes/assumptions/7.md), and writes nothing
else. That it answers ONLY where they can be read is the model's choice: a byte that holds no value stops the read
(notes/assumptions/2.md). -/
def Obligations.CompressFeedsForward : Prop :=
  ∀ s : State,
    (∀ t, compress s = .ok t → ∃ block, memRead s 0 128 = .ok block) ∧
    ∀ block, memRead s 0 128 = .ok block → ∃ t, compress s = .ok t ∧
      t.v = rounds (blockWords block) (initialV s.h s.t s.f) ∧
      (∀ i : Fin 8, t.h[i] = xor64 s.h[i] (xor64 t.v[i.val] t.v[i.val + 8])) ∧
      t = { s with h := t.h, v := t.v }

/-! ### The buffer memory -/

/-- 20_memory.md R31: what a read answers and what a write leaves, at every address, for every length (0 among them). Two
clauses are the model's choice: that a read of a byte that holds no value does not answer (notes/assumptions/2.md), and
that an access out of range is not done (notes/assumptions/12.md). -/
def Obligations.BufferReadsAndWrites : Prop :=
  ∀ (s : State) (addr : Nat) (bytes : List Byte),
    (∀ n, memRead s addr n = .ok bytes ↔
      addr + n ≤ 128 ∧ bytes.length = n ∧ ∀ i, i < n → s.buf.read (addr + i) = bytes[i]?) ∧
    (addr + bytes.length ≤ 128 → ∃ t, memWrite s addr bytes = .ok t ∧
      (∀ k, k < bytes.length → t.buf.read (addr + k) = bytes[k]?) ∧
      (∀ x, x < addr ∨ addr + bytes.length ≤ x → t.buf.read x = s.buf.read x) ∧
      t = { s with buf := t.buf }) ∧
    (128 < addr + bytes.length → ∀ t, memWrite s addr bytes ≠ .ok t) ∧
    (addr ≤ 128 → memRead s addr 0 = .ok [] ∧ memWrite s addr [] = .ok s)

/-- 10_state.md R13 and the canonical form of memory (notes/assumptions/2.md): a write keeps it, two canonical memories that read
alike are equal, and an access that leaves `0 .. 127` stops by name (20_memory.md R44 gives it no behaviour). -/
def Obligations.BufferKeepsItsCanonicalForm : Prop :=
  (∀ (s t : State) (addr : Nat) (bytes : List Byte),
    s.buf.wf = true → memWrite s addr bytes = .ok t → t.buf.wf = true) ∧
  (∀ m n : Memory, m.wf = true → n.wf = true → (∀ x, m.read x = n.read x) → m = n) ∧
  (∀ (s : State) (addr n : Nat), 128 < addr + n → memRead s addr n = .error (.addressOutOfRange addr n)) ∧
  (∀ (s : State) (addr : Nat) (bytes : List Byte), 128 < addr + bytes.length →
    memWrite s addr bytes = .error (.addressOutOfRange addr bytes.length))

/-! ### INIT -/

/-- 43_init.md R86, R88: `INIT` with operands in range completes in every phase; the value of every register it writes, the answer,
and what it leaves alone. With a key, `BUFLEN` and `BUF` are those of `KeyedInitBuffersTheKeyBlock`. -/
def Obligations.InitCreatesTheContext : Prop :=
  ∀ (s : State) (nn : Byte) (key : List Byte), 1 ≤ nn.toNat → nn.toNat ≤ 64 → key.length ≤ 64 →
    ∃ t, exec (.init nn key) s = .next t ∧
      t.h[0] = xor64 iv[0] (BitVec.ofNat 64 (nn.toNat + 256 * key.length + 0x0000000001010000)) ∧
      (∀ i : Fin 8, i ≠ 0 → t.h[i] = iv[i]) ∧
      t.t = #v[0, 0] ∧ t.f = #v[0, 0] ∧
      t.nn = nn ∧ t.kk.toNat = key.length ∧ t.phase = .active ∧
      t.responses = s.responses ++ [[0x00]] ∧
      (key = [] → t.buflen.val = 0 ∧ t.buf = s.buf) ∧
      t.v = s.v ∧ t.commands = s.commands ∧ t.ci = s.ci ∧ t.resets = s.resets

/-- 43_init.md R87 (the end of it derived by the spec from R90): after an `INIT` with a key the buffer is full: the key, then
zeros. Nothing has been compressed or counted, and no byte outside the buffer changes. -/
def Obligations.KeyedInitBuffersTheKeyBlock : Prop :=
  ∀ (s : State) (nn : Byte) (key : List Byte), 1 ≤ nn.toNat → nn.toNat ≤ 64 → 1 ≤ key.length → key.length ≤ 64 →
    ∃ t, exec (.init nn key) s = .next t ∧ t.buflen.val = 128 ∧ t.t = #v[0, 0] ∧
      t.h = initialChain nn t.kk ∧ t.v = s.v ∧
      ∀ a, t.buf.read a = if a < key.length then key[a]? else if a < 128 then some 0 else s.buf.read a

/-- 43_init.md R85 and 60_exceptions.md R107: `INIT` answers `InvalidParameter`, and changes nothing but the response stream,
exactly when `nn` is 0, `nn` is 65 or more, or the key is longer than 64 bytes; `UPDATE` and `FINAL` never do. -/
def Obligations.InitRejectsOutOfRangeOperands : Prop :=
  ∀ s : State,
    (∀ (nn : Byte) (key : List Byte),
      exec (.init nn key) s = .next { s with responses := s.responses ++ [[0x01]] } ↔
        (nn.toNat = 0 ∨ 65 ≤ nn.toNat ∨ 65 ≤ key.length)) ∧
    (∀ data t, exec (.update data) s = .next t → t.responses ≠ s.responses ++ [[0x01]]) ∧
    (∀ t, exec .final s = .next t → t.responses ≠ s.responses ++ [[0x01]])

/-- 43_init.md R89 (e) and 10_state.md R27 (both derived by the spec): a successful `INIT` makes two engines with the same
streams alike to the host, whatever each held before. -/
def Obligations.InitForgetsThePast : Prop :=
  ∀ (s u s' u' : State) (nn : Byte) (key : List Byte), 1 ≤ nn.toNat → nn.toNat ≤ 64 → key.length ≤ 64 →
    s.commands = u.commands → s.responses = u.responses →
    exec (.init nn key) s = .next s' → exec (.init nn key) u = .next u' → s'.agree u'

/-! ### UPDATE -/

/-- 44_update.md R90: `ABSORB` is the loop of the rule, turn by turn: the strict test, fill, `INC_T(128)`, `COMPRESS`, empty,
in that order. -/
def Obligations.AbsorbFollowsTheLoop : Prop :=
  ∀ (data : List Byte) (s : State), absorb data s =
    if data.length = 0 then .ok s
    else if data.length > 128 - s.buflen.val then do
      let s1 ← memWrite s s.buflen.val (data.take (128 - s.buflen.val))
      let s2 ← compress ((s1.setBuflen 128).incT 128)
      absorb (data.drop (128 - s.buflen.val)) (s2.setBuflen 0)
    else do
      let s1 ← memWrite s s.buflen.val data
      .ok (s1.setBuflen (s.buflen.val + data.length))

/-- 44_update.md R90, R91 and R93: with a context and a payload that fits, `UPDATE` completes without a compression: the bytes
follow the valid ones, the fill count grows, and nothing else changes. -/
def Obligations.UpdateThatFitsOnlyBuffers : Prop :=
  ∀ (s : State) (data : List Byte), s.phase = .active → s.buflen.val + data.length ≤ 128 →
    ∃ t, exec (.update data) s = .next t ∧
      t.buflen.val = s.buflen.val + data.length ∧
      (∀ a, t.buf.read a =
        if s.buflen.val ≤ a ∧ a < s.buflen.val + data.length then data[a - s.buflen.val]? else s.buf.read a) ∧
      t = { s with buf := t.buf, buflen := t.buflen, responses := s.responses ++ [[0x00]] }

/-- 44_update.md section on the closed form (R95, derived by the spec) and 70_reset_and_hazards.md R128: with a context whose
valid bytes are held, `UPDATE` completes whatever the payload. With `old` the valid bytes, `input` these and the payload, and
`c` the blocks completed: `H`, `T`, `BUFLEN` and the bytes of `BUF`, valid and stale, are those of the closed form, and
no other register changes but the scratch `V`. -/
def Obligations.UpdateReachesTheClosedForm : Prop :=
  ∀ (s : State) (data old : List Byte), s.phase = .active → memRead s 0 s.buflen.val = .ok old →
    let input := old ++ data
    let c := blocksBefore input.length
    ∃ t, exec (.update data) s = .next t ∧
      t.h = chainFrom s.h (counterValue s.t) s.f input c ∧
      counterValue t.t = (counterValue s.t + 128 * c) % 2 ^ 128 ∧
      t.buflen.val = input.length - 128 * c ∧
      (∀ a, t.buf.read a =
        if a < input.length - 128 * c then input[128 * c + a]?
        else if c = 0 ∨ 128 ≤ a then s.buf.read a
        else input[128 * (c - 1) + a]?) ∧
      t = { s with h := t.h, t := t.t, buf := t.buf, buflen := t.buflen, v := t.v,
                   responses := s.responses ++ [[0x00]] }

/-- 44_update.md R92: an empty `UPDATE` changes nothing but the response stream, on a full buffer too. -/
def Obligations.EmptyUpdateChangesNothing : Prop :=
  ∀ s : State, s.phase = .active →
    exec (.update []) s = .next { s with responses := s.responses ++ [[0x00]] }

/-- 44_update.md section on chunk invariance (R94, derived by the spec): how the bytes are split does not matter, to any register,
stale bytes and `V` among them. -/
def Obligations.AbsorbIsChunkInvariant : Prop :=
  (∀ (x y : List Byte) (s s1 : State), absorb x s = .ok s1 → absorb (x ++ y) s = absorb y s1) ∧
  (∀ (chunks : List (List Byte)) (s : State),
    absorb chunks.flatten s = chunks.foldlM (fun u chunk => absorb chunk u) s)

/-! ### FINAL -/

/-- 45_final_and_hash.md R98 to R101: with a context whose valid bytes `old` are held, `FINAL` completes: the counter, the flag,
the padded block, the one compression, the digest in the answer, the phase; everything else is unchanged but `V`. -/
def Obligations.FinalReturnsTheDigest : Prop :=
  ∀ (s : State) (old : List Byte), s.phase = .active → memRead s 0 s.buflen.val = .ok old →
    let padded := old ++ zeros (128 - s.buflen.val)
    ∃ t, exec .final s = .next t ∧
      t.t = incCounter s.t s.buflen.val ∧
      t.f = (#v[0xFFFFFFFFFFFFFFFF, s.f[1]] : Vector Word 2) ∧
      t.h = compressBlock s.h t.t t.f padded ∧
      (∀ a, t.buf.read a = if a < 128 then padded[a]? else s.buf.read a) ∧
      t.phase = .done ∧
      (let out : List Byte := store64 t.h[0] ++ store64 t.h[1] ++ store64 t.h[2] ++ store64 t.h[3] ++
        store64 t.h[4] ++ store64 t.h[5] ++ store64 t.h[6] ++ store64 t.h[7]
      t.responses = s.responses ++ [0x00 :: out.take s.nn.toNat]) ∧
      t = { s with h := t.h, t := t.t, f := t.f, buf := t.buf, phase := t.phase, v := t.v,
                   responses := t.responses }

/-- 20_memory.md R33 and R40: byte `8i + k` of `OUT` is byte `k` of `H[i]`, and the digest is its first `NN` bytes. -/
def Obligations.DigestIsTheFirstBytesOfOut : Prop :=
  ∀ (h : Vector Word 8) (nn : Byte),
    (outBytes h).length = 64 ∧
    (∀ (i : Fin 8) (k : Fin 8),
      ((outBytes h)[8 * i.val + k.val]?).map BitVec.toNat = some (h[i].toNat / 2 ^ (8 * k.val) % 256)) ∧
    digest nn h = (outBytes h).take nn.toNat ∧
    (nn.toNat ≤ 64 → (digest nn h).length = nn.toNat)

/-- 60_exceptions.md R108: `UPDATE` and `FINAL` answer `ProtocolViolation`, and change nothing but the response stream, exactly
when `PHASE` is not `ACTIVE`; `INIT` never does. -/
def Obligations.CommandsNeedAnActiveContext : Prop :=
  ∀ s : State,
    (∀ data, exec (.update data) s = .next { s with responses := s.responses ++ [[0x02]] } ↔ s.phase ≠ .active) ∧
    (exec .final s = .next { s with responses := s.responses ++ [[0x02]] } ↔ s.phase ≠ .active) ∧
    (∀ nn key t, exec (.init nn key) s = .next t → t.responses ≠ s.responses ++ [[0x02]])

/-! ### HASH -/

/-- 45_final_and_hash.md R102 and R103: from every state, in every phase, `HASH` with a length in range completes and answers
`OK`, `OK`, and the digest as the function `blake2b` of its operands gives it, of exactly `nn` bytes. That the instruction adds
all three answers and leaves the command stream and `ci` alone is the model's reading of it (notes/assumptions/11.md). -/
def Obligations.HashComputesBlake2b : Prop :=
  ∀ (s : State) (nn : Byte) (data : List Byte), 1 ≤ nn.toNat → nn.toNat ≤ 64 →
    ∃ t, exec (.hash nn data) s = .next t ∧
      t.responses = s.responses ++ [[0x00], [0x00], 0x00 :: blake2b nn [] data] ∧
      (blake2b nn [] data).length = nn.toNat ∧
      t.phase = .done ∧ t.nn = nn ∧ t.kk = 0 ∧ t.f = #v[0xFFFFFFFFFFFFFFFF, 0] ∧
      counterValue t.t = data.length % 2 ^ 128 ∧
      t.commands = s.commands ∧ t.ci = s.ci ∧ t.resets = s.resets

/-- 30_encoding.md R57 and 45_final_and_hash.md R102: `HASH` with a length out of range sends its `INIT` only; the answer is
`InvalidParameter` and nothing else changes. -/
def Obligations.HashStopsAtARejectedInit : Prop :=
  ∀ (s : State) (nn : Byte) (data : List Byte), nn.toNat = 0 ∨ 65 ≤ nn.toNat →
    exec (.hash nn data) s = .next { s with responses := s.responses ++ [[0x01]] }

/-- 30_encoding.md R57, 45_final_and_hash.md R102: the packets the host sends for `HASH`, three with a length in range and the
`INIT` alone with one out of range, and that `HASH` is the steps of the engine on them. That `HASH` is an instruction of its
own which leaves the command stream and `ci` alone, so that they stand advanced on its side, is the model's reading
(notes/assumptions/11.md). -/
def Obligations.HashIsItsThreePackets : Prop :=
  ∀ (s : State) (nn : Byte) (data : List Byte) (rest : List HostEvent),
    (1 ≤ nn.toNat → nn.toNat ≤ 64 →
      packetsOf (.hash nn data) = [[0x01, nn], [0x02, 0x00] ++ data, [0x03, 0x00]] ∧
      Host.Core.run Sys2Proof.core 3
          { s with commands := (packetsOf (.hash nn data)).map .packet ++ rest } =
        exec (.hash nn data) { s with commands := rest, ci := s.ci + 3 }) ∧
    (nn.toNat = 0 ∨ 65 ≤ nn.toNat →
      packetsOf (.hash nn data) = [[0x01, nn]] ∧
      Host.Core.run Sys2Proof.core 1
          { s with commands := (packetsOf (.hash nn data)).map .packet ++ rest } =
        exec (.hash nn data) { s with commands := rest, ci := s.ci + 1 } ∧
      exec (.hash nn data) { s with commands := rest, ci := s.ci + 1 } =
        .next { s with commands := rest, ci := s.ci + 1, responses := s.responses ++ [[0x01]] })

/-- 45_final_and_hash.md R103 and R104, 44_update.md R95 (in part derived by the spec): a program that creates a context, keyed or
not, absorbs any chunks and finishes, run from any engine state, is answered `OK` for each command and the digest that the
function `blake2b` gives for the length, the key and the joined chunks. How a program comes to run, `loadProgram`, is
notes/assumptions/5.md. -/
def Obligations.KeyedProgramsComputeBlake2b : Prop :=
  ∀ (s : State) (nn : Byte) (key : List Byte) (chunks : List (List Byte)),
    1 ≤ nn.toNat → nn.toNat ≤ 64 → key.length ≤ 64 →
    observed (runProgram
        (([0x01, nn] ++ key) :: (chunks.map fun chunk => [0x02, 0x00] ++ chunk) ++ [[0x03, 0x00]]) s) =
      some (([0x00] :: chunks.map fun _ => [0x00]) ++ [0x00 :: blake2b nn key chunks.flatten])

/-! ### Exceptions, steps and the whole machine -/

/-- 30_encoding.md R53, 60_exceptions.md R106 and R113: a step on a packet gives one answer, and its status is the one the rules
name: illegal packets before everything, then the phase, then the operands of `INIT`. -/
def Obligations.EachPacketGetsItsOneStatus : Prop :=
  ∀ (s t : State) (p : Packet) (rest : List HostEvent),
    s.commands = .packet p :: rest → step s = .next t →
    ∃ status result, t.responses = s.responses ++ [status :: result] ∧
      (status = 0x03 ↔ illegalPacket p = true) ∧
      (status = 0x02 ↔ s.phase ≠ .active ∧ ((∃ data, decode p = .ok (.update data)) ∨ decode p = .ok .final)) ∧
      (status = 0x01 ↔ ∃ nn key, decode p = .ok (.init nn key) ∧
        (nn.toNat = 0 ∨ 65 ≤ nn.toNat ∨ 65 ≤ key.length)) ∧
      (status = 0x00 ∨ status = 0x01 ∨ status = 0x02 ∨ status = 0x03) ∧
      (result ≠ [] → status = 0x00 ∧ decode p = .ok .final)

/-- 60_exceptions.md R112: a command that raises changes no register and no byte of memory; it leaves the one-byte answer and is
taken from the command stream. -/
def Obligations.RaisingCommandsChangeNothing : Prop :=
  ∀ (s t : State) (p : Packet) (rest : List HostEvent) (status : Byte) (result : List Byte),
    s.commands = .packet p :: rest → step s = .next t →
    t.responses = s.responses ++ [status :: result] → status ≠ 0x00 →
    t = { s with commands := rest, ci := s.ci + 1, responses := s.responses ++ [[status]] }

/-- 60_exceptions.md R109: which packets are illegal, and that one is consumed whole, answered `IllegalCommand`, and changes
nothing, in every phase. -/
def Obligations.IllegalPacketsAreAnswered : Prop :=
  (∀ p : Packet, illegalPacket p = true ↔
    p.length < 2 ∨ ∃ opc arg pay, p = opc :: arg :: pay ∧
      ((opc ≠ 0x01 ∧ opc ≠ 0x02 ∧ opc ≠ 0x03) ∨ ((opc = 0x02 ∨ opc = 0x03) ∧ arg ≠ 0x00) ∨
        (opc = 0x03 ∧ pay ≠ []))) ∧
  ∀ (s : State) (p : Packet) (rest : List HostEvent),
    s.commands = .packet p :: rest → illegalPacket p = true →
    step s = .next { s with commands := rest, ci := s.ci + 1, responses := s.responses ++ [[0x03]] }

/-- 00_scope.md R4, 10_state.md R25, 30_encoding.md R45: when the next packet decodes to `i`, a step is `exec i` on the state with
that packet taken and the program position advanced by one. -/
def Obligations.StepRunsTheDecodedCommand : Prop :=
  ∀ (s : State) (p : Packet) (rest : List HostEvent) (i : Instr),
    s.commands = .packet p :: rest → decode p = .ok i →
    step s = exec i { s with commands := rest, ci := s.ci + 1 }

/-- 70_reset_and_hazards.md R120 (that a step with nothing sent changes nothing, that the streams stay and what `ci` does are the
model's reading, notes/assumptions/5.md and 6.md): waiting, and the reset: `PHASE` is `IDLE`, no byte of `BUF` holds a value,
no answer is given, and what is still in the command stream stays. -/
def Obligations.WaitingAndReset : Prop :=
  (∀ s : State, s.commands = [] → step s = .next s) ∧
  (∀ (s : State) (cut : Option Packet) (rest : List HostEvent), s.commands = .reset cut :: rest →
    ∃ t, step s = .next t ∧ t.phase = .idle ∧ (∀ a, t.buf.read a = none) ∧ t.responses = s.responses ∧
      t.commands = rest ∧ t.resets = s.resets + 1 ∧ t.ci = (if cut = none then s.ci else s.ci + 1))

/-- 10_state.md R27 and 70_reset_and_hazards.md R120, R121 (the empty streams and the values of other registers are the model's,
notes/assumptions/1.md): right after reset `PHASE` is `IDLE` and no byte of `BUF` holds a value; `UPDATE` and `FINAL` are
answered `ProtocolViolation`, and an `INIT` in range is accepted. -/
def Obligations.ResetAcceptsOnlyInit : Prop :=
  State.reset.phase = .idle ∧ (∀ a, State.reset.buf.read a = none) ∧
  (∀ data, exec (.update data) State.reset = .next { State.reset with responses := [[0x02]] }) ∧
  exec .final State.reset = .next { State.reset with responses := [[0x02]] } ∧
  (∀ nn : Byte, 1 ≤ nn.toNat → nn.toNat ≤ 64 →
    ∃ t, exec (.init nn []) State.reset = .next t ∧ t.phase = .active ∧ t.responses = [[0x00]])

/-- 10_state.md R17: the codes of the phases, the reset value, every way `PHASE` changes (a reset sets `IDLE`, a successful
`INIT` sets `ACTIVE` from any phase, a successful `FINAL` sets `DONE` from `ACTIVE`, nothing else writes it), and that
`UPDATE` and `FINAL` raise unless it is `ACTIVE`. -/
def Obligations.PhaseChangesOnlyByInitFinalReset : Prop :=
  Phase.code .idle = 0 ∧ Phase.code .active = 1 ∧ Phase.code .done = 2 ∧ State.reset.phase = .idle ∧
  (∀ s : State, s.phase ≠ .active →
    (∀ data, exec (.update data) s = .next { s with responses := s.responses ++ [[0x02]] }) ∧
    exec .final s = .next { s with responses := s.responses ++ [[0x02]] }) ∧
  (∀ (s t : State) (ev : HostEvent) (rest : List HostEvent), s.commands = ev :: rest → step s = .next t →
    match ev with
    | .reset _ => t.phase = .idle
    | .packet p =>
      match decode p with
      | .ok (.init nn key) =>
        t.phase = if 1 ≤ nn.toNat ∧ nn.toNat ≤ 64 ∧ key.length ≤ 64 then .active else s.phase
      | .ok .final => t.phase = if s.phase = .active then .done else s.phase
      | _ => t.phase = s.phase)

/-- 10_state.md section 8, the table of readers and writers (R29), and R12, R15, R16: the registers each command leaves alone
whenever it answers a next state. -/
def Obligations.CommandsWriteOnlyTheirRegisters : Prop :=
  (∀ (s t : State) (nn : Byte) (key : List Byte), exec (.init nn key) s = .next t →
    t.v = s.v ∧ (key = [] → t.buf = s.buf) ∧ (∀ a, 128 ≤ a → t.buf.read a = s.buf.read a)) ∧
  (∀ (s t : State) (data : List Byte), exec (.update data) s = .next t →
    t.f = s.f ∧ t.nn = s.nn ∧ t.kk = s.kk ∧ t.phase = s.phase ∧
    (∀ a, 128 ≤ a → t.buf.read a = s.buf.read a)) ∧
  (∀ s t : State, exec .final s = .next t →
    t.buflen = s.buflen ∧ t.nn = s.nn ∧ t.kk = s.kk ∧ t.f[1] = s.f[1] ∧
    (∀ a, a < s.buflen.val ∨ 128 ≤ a → t.buf.read a = s.buf.read a)) ∧
  (∀ (i : Instr) (s t : State), exec i s = .next t →
    t.commands = s.commands ∧ t.ci = s.ci ∧ t.resets = s.resets ∧ s.responses <+: t.responses)

/-! ### Invariants and runs -/

/-- 10_state.md section 8: the invariant holds right after reset (whatever the model's values of the other registers,
notes/assumptions/1.md). -/
def Obligations.ResetMeetsTheInvariant : Prop := State.reset.Inv

/-- 10_state.md section 8 (R28, derived by the spec): every step keeps the invariant, a reset among them. -/
def Obligations.EveryStepKeepsTheInvariant : Prop :=
  ∀ s t : State, s.Inv → step s = .next t → t.Inv

/-- 60_exceptions.md section 1 (R110) and 70_reset_and_hazards.md R128: under the invariant no step stops, and every command is
answered, once. -/
def Obligations.EveryStepCompletes : Prop :=
  ∀ s : State, s.Inv → ∃ t, step s = .next t ∧
    (∀ p rest, s.commands = .packet p :: rest →
      t.commands = rest ∧ t.ci = s.ci + 1 ∧ ∃ rsp, rsp ≠ [] ∧ t.responses = s.responses ++ [rsp])

/-- 70_reset_and_hazards.md R130: a run of any program from a state that meets the invariant ends with one answer for each
packet, the command stream empty and the position at the end of the program. -/
def Obligations.EveryRunAnswersEachPacket : Prop :=
  ∀ (prog : List Packet) (s : State), s.Inv →
    ∃ t, runProgram prog s = .next t ∧ t.Inv ∧ t.responses.length = prog.length ∧
      t.ci = prog.length ∧ t.commands = []

/-- 10_state.md R13, R16, R18, R27 and 45_final_and_hash.md R101: stale bytes, the scratch `V`, the key length, and everything
but the phase while no context is active cannot reach a response: a step keeps the agreement of two states. -/
def Obligations.HiddenStateNeverReachesTheHost : Prop :=
  ∀ s u s' : State, s.agree u → step s = .next s' → ∃ u', step u = .next u' ∧ s'.agree u'

/-- 60_exceptions.md R116: engines share nothing: steps of two engines of a system may be taken in either order, and a step
leaves every other engine's state as it was. -/
def Obligations.EnginesAreIndependent : Prop :=
  ∀ (sys a b : System) (j k : Nat), j ≠ k →
    System.stepEngine sys j = some a → System.stepEngine sys k = some b →
    a[k]? = sys[k]? ∧ b[j]? = sys[j]? ∧
    ∃ c, System.stepEngine a k = some c ∧ System.stepEngine b j = some c

/-- 30_encoding.md R56, R57: lines of program text stand for the packets of the rule's table; a `HASH` with a length out of range
stands for its `INIT` alone. Spaces around `‖`, and `seq` without the space of the rule's form, are read by the model's
choice (notes/assumptions/10.md). -/
def Obligations.ProgramTextAssembles : Prop :=
  assembleLine ['I', 'N', 'I', 'T', ' ', '6', '4'] = some [[0x01, 0x40]] ∧
  assembleLine ['I', 'N', 'I', 'T', ' ', '2', '0', ',', ' ', 'k', 'e', 'y', '=', '"', 'k', 'e', 'y', '"'] =
    some [[0x01, 0x14, 0x6b, 0x65, 0x79]] ∧
  assembleLine ['U', 'P', 'D', 'A', 'T', 'E', ' ', 'x', '"', '0', '0', 'f', 'f', '"', ' ', '‖', ' ', 'z', 'e', 'r',
    'o', 's', '(', '2', ')', ' ', ';', ' ', 'x'] = some [[0x02, 0x00, 0x00, 0xff, 0x00, 0x00]] ∧
  assembleLine ['U', 'P', 'D', 'A', 'T', 'E'] = some [[0x02, 0x00]] ∧
  assembleLine ['F', 'I', 'N', 'A', 'L'] = some [[0x03, 0x00]] ∧
  assembleLine ['H', 'A', 'S', 'H', ' ', '1', ',', ' ', 's', 'e', 'q', '(', '2', '5', '5', ',', '2', ')'] =
    some [[0x01, 0x01], [0x02, 0x00, 0xff, 0x00], [0x03, 0x00]] ∧
  assembleLine ['H', 'A', 'S', 'H', ' ', '0', ',', ' ', '"', 'a', '"'] = some [[0x01, 0x00]] ∧
  assembleLine ['H', 'A', 'S', 'H', ' ', '6', '5', ',', ' ', '"', 'a', '"'] = some [[0x01, 0x41]] ∧
  assembleLine ['.', 'r', 'a', 'w', ' ', 'x', '"', '0', '3', '0', '1', '"'] = some [[0x03, 0x01]] ∧
  assembleLine ['I', 'N', 'I', 'T', ' ', '2', '5', '6'] = none
end

