-- ==== Sys2Proof/Laws/Memory.lean ====
section
/-! SUPPORT. What the buffer memory does: reads after writes, writes elsewhere, byte strings, and the canonical form. -/

namespace Sys2Proof.Machine

@[simp] theorem Memory.read_write_same (m : Memory) (a : Nat) (b : Byte) :
    Memory.read (Memory.write m a b) a = some b := by
  induction m with
  | nil => simp [Memory.write, Memory.read]
  | cons cell rest ih =>
    obtain ⟨k, c⟩ := cell
    simp only [Memory.write]
    split
    · simp [Memory.read]
    · split
      · simp [Memory.read]
      · rename_i h1 h2
        simp only [Memory.read]
        rw [if_neg (fun h => h2 h.symm), ih]

theorem Memory.read_write_other (m : Memory) (a x : Nat) (b : Byte) (hx : x ≠ a) :
    Memory.read (Memory.write m a b) x = Memory.read m x := by
  induction m with
  | nil => simp [Memory.write, Memory.read, Ne.symm hx]
  | cons cell rest ih =>
    obtain ⟨k, c⟩ := cell
    simp only [Memory.write]
    split
    · simp [Memory.read, Ne.symm hx]
    · split
      · rename_i h1 h2
        subst h2
        simp [Memory.read, Ne.symm hx]
      · simp [Memory.read, ih]

theorem Memory.read_write (m : Memory) (a x : Nat) (b : Byte) :
    Memory.read (Memory.write m a b) x = if x = a then some b else Memory.read m x := by
  split
  · rename_i h; subst h; simp
  · rename_i h; exact Memory.read_write_other m a x b h

theorem Memory.read_writeBytes (m : Memory) (a : Nat) (bs : List Byte) (x : Nat) :
    Memory.read (Memory.writeBytes m a bs) x =
      if a ≤ x ∧ x < a + bs.length then bs[x - a]? else Memory.read m x := by
  induction bs generalizing m a with
  | nil => simp [Memory.writeBytes]
  | cons b bs ih =>
    simp only [Memory.writeBytes, ih, Memory.read_write, List.length_cons]
    by_cases h1 : x = a
    · subst h1; simp
    · by_cases h2 : a + 1 ≤ x ∧ x < a + 1 + bs.length
      · have h3 : x - a = (x - (a + 1)) + 1 := by omega
        rw [if_pos h2, if_pos (by omega), h3, List.getElem?_cons_succ]
      · rw [if_neg h2, if_neg h1, if_neg (by omega)]

@[simp] theorem Memory.writeBytes_nil (m : Memory) (a : Nat) : Memory.writeBytes m a [] = m := rfl

theorem Memory.writeBytes_append (m : Memory) (a : Nat) (xs ys : List Byte) :
    Memory.writeBytes m a (xs ++ ys) = Memory.writeBytes (Memory.writeBytes m a xs) (a + xs.length) ys := by
  induction xs generalizing m a with
  | nil => simp
  | cons x xs ih =>
    simp only [List.cons_append, Memory.writeBytes, ih, List.length_cons]
    congr 1; omega

/-- A string read has the asked length and holds each byte at its address (R31). -/
theorem Memory.readBytes_eq_some (m : Memory) (a n : Nat) (bs : List Byte) :
    Memory.readBytes m a n = some bs ↔ bs.length = n ∧ ∀ i, i < n → Memory.read m (a + i) = bs[i]? := by
  induction n generalizing a bs with
  | zero => simp only [Memory.readBytes, Option.some.injEq, List.length_eq_zero_iff]
            constructor
            · rintro rfl; simp
            · rintro ⟨rfl, -⟩; rfl
  | succ n ih =>
    simp only [Memory.readBytes]
    cases bs with
    | nil => split <;> simp
    | cons b bs =>
      have key : (∀ i, i < n + 1 → Memory.read m (a + i) = (b :: bs)[i]?) ↔
          Memory.read m a = some b ∧ ∀ i, i < n → Memory.read m (a + 1 + i) = bs[i]? := by
        constructor
        · intro h
          refine ⟨by simpa using h 0 (by omega), fun i hi => ?_⟩
          have := h (i + 1) (by omega)
          simpa [Nat.add_assoc, Nat.add_comm 1 i] using this
        · rintro ⟨h0, h1⟩ i hi
          cases i with
          | zero => simpa using h0
          | succ i => simpa [Nat.add_assoc, Nat.add_comm 1 i] using h1 i (by omega)
      rw [key, List.length_cons, Nat.add_right_cancel_iff]
      split
      · rename_i c cs h1 h2
        have := (ih (a + 1) cs).1 h2
        rw [h1]
        constructor
        · intro h
          cases h
          exact ⟨this.1, rfl, this.2⟩
        · rintro ⟨hl, hb, hr⟩
          have h3 := (ih (a + 1) bs).2 ⟨hl, hr⟩
          rw [h2] at h3
          cases h3; cases hb; rfl
      · rename_i hno
        constructor
        · intro h; cases h
        · rintro ⟨hl, hb, hr⟩
          exact absurd ((ih (a + 1) bs).2 ⟨hl, hr⟩) (hno b bs hb)

/-- Where every byte holds a value, the string can be read. -/
theorem Memory.readBytes_isSome (m : Memory) (a n : Nat)
    (h : ∀ i, i < n → (Memory.read m (a + i)).isSome = true) : ∃ bs, Memory.readBytes m a n = some bs := by
  induction n generalizing a with
  | zero => exact ⟨[], rfl⟩
  | succ n ih =>
    obtain ⟨bs, hbs⟩ := ih (a + 1) (fun i hi => by
      have := h (i + 1) (by omega)
      rwa [show a + 1 + i = a + (i + 1) by omega])
    obtain ⟨b, hb⟩ := Option.isSome_iff_exists.1 (h 0 (by omega))
    rw [Nat.add_zero] at hb
    exact ⟨b :: bs, by simp [Memory.readBytes, hb, hbs]⟩

/-- A string just written is read back whole. -/
theorem Memory.readBytes_writeBytes (m : Memory) (a : Nat) (bs : List Byte) :
    Memory.readBytes (Memory.writeBytes m a bs) a bs.length = some bs := by
  rw [Memory.readBytes_eq_some]
  refine ⟨rfl, fun i hi => ?_⟩
  rw [Memory.read_writeBytes, if_pos (by omega)]
  congr 1; omega

theorem Memory.wfFrom_mono (m : Memory) (lo lo' : Nat) (h : lo' ≤ lo) (hw : Memory.wfFrom lo m = true) :
    Memory.wfFrom lo' m = true := by
  cases m with
  | nil => rfl
  | cons cell rest =>
    simp only [Memory.wfFrom, Bool.and_eq_true, decide_eq_true_eq] at hw ⊢
    exact ⟨⟨by omega, hw.1.2⟩, hw.2⟩

theorem Memory.wfFrom_write (m : Memory) (lo a : Nat) (b : Byte) (hlo : lo ≤ a) (ha : a < 128)
    (hw : Memory.wfFrom lo m = true) : Memory.wfFrom lo (Memory.write m a b) = true := by
  induction m generalizing lo with
  | nil => simp [Memory.write, Memory.wfFrom, hlo, ha]
  | cons cell rest ih =>
    obtain ⟨k, c⟩ := cell
    simp only [Memory.wfFrom, Bool.and_eq_true, decide_eq_true_eq] at hw
    simp only [Memory.write]
    split
    · simp only [Memory.wfFrom, Bool.and_eq_true, decide_eq_true_eq]
      exact ⟨⟨hlo, ha⟩, ⟨by omega, hw.1.2⟩, hw.2⟩
    · split
      · rename_i h1 h2
        subst h2
        simp only [Memory.wfFrom, Bool.and_eq_true, decide_eq_true_eq]
        exact hw
      · simp only [Memory.wfFrom, Bool.and_eq_true, decide_eq_true_eq]
        exact ⟨hw.1, ih (k + 1) (by omega) hw.2⟩

/-- A byte string written inside `0 .. 127` keeps the canonical form. -/
theorem Memory.wf_writeBytes (m : Memory) (a : Nat) (bs : List Byte) (h : a + bs.length ≤ 128)
    (hw : Memory.wf m = true) : Memory.wf (Memory.writeBytes m a bs) = true := by
  induction bs generalizing m a with
  | nil => exact hw
  | cons b bs ih =>
    simp only [List.length_cons] at h
    exact ih _ _ (by omega) (Memory.wfFrom_write m 0 a b (by omega) (by omega) hw)

@[simp] theorem Memory.wf_nil : Memory.wf [] = true := rfl

/-- In canonical form no address below the first is listed. -/
theorem Memory.read_below (m : Memory) (lo x : Nat) (hw : Memory.wfFrom lo m = true) (hx : x < lo) :
    Memory.read m x = none := by
  induction m generalizing lo with
  | nil => rfl
  | cons cell rest ih =>
    obtain ⟨k, c⟩ := cell
    simp only [Memory.wfFrom, Bool.and_eq_true, decide_eq_true_eq] at hw
    simp only [Memory.read]
    rw [if_neg (by omega), ih (k + 1) hw.2 (by omega)]

/-- Canonical memories that read alike are equal data. -/
theorem Memory.ext_of_wfFrom (m n : Memory) (lo : Nat) (hm : Memory.wfFrom lo m = true)
    (hn : Memory.wfFrom lo n = true) (h : ∀ x, Memory.read m x = Memory.read n x) : m = n := by
  induction m generalizing n lo with
  | nil =>
    cases n with
    | nil => rfl
    | cons cell rest =>
      have := h cell.1
      simp [Memory.read] at this
  | cons cell rest ih =>
    obtain ⟨k, c⟩ := cell
    cases n with
    | nil => have := h k; simp [Memory.read] at this
    | cons cell' rest' =>
      obtain ⟨k', c'⟩ := cell'
      simp only [Memory.wfFrom, Bool.and_eq_true, decide_eq_true_eq] at hm hn
      have hk : k = k' := by
        by_contra hne
        rcases Nat.lt_or_gt_of_ne hne with hlt | hlt
        · have := h k
          simp only [Memory.read] at this
          rw [if_pos trivial, if_neg (by omega), Memory.read_below rest' (k' + 1) k hn.2 (by omega)] at this
          cases this
        · have := h k'
          simp only [Memory.read] at this
          rw [if_neg (by omega), if_pos trivial, Memory.read_below rest (k + 1) k' hm.2 (by omega)] at this
          cases this
      subst hk
      have hc : c = c' := by have := h k; simpa [Memory.read] using this
      subst hc
      rw [ih rest' (k + 1) hm.2 hn.2 (fun x => ?_)]
      by_cases hx : k = x
      · subst hx
        rw [Memory.read_below rest (k + 1) k hm.2 (by omega), Memory.read_below rest' (k + 1) k hn.2 (by omega)]
      · have := h x
        simpa [Memory.read, hx] using this

end Sys2Proof.Machine
end

