-- ==== Sys2Proof/Laws/State.lean ====
section
/-! SUPPORT. One lemma for each field under each named update of the state, so that no proof unfolds an update; and the number
`setBuflen` stores. -/

namespace Sys2Proof.Machine

variable (s : State)

@[simp] theorem setBuf_h (m : Memory) : (s.setBuf m).h = s.h := rfl
@[simp] theorem setBuf_t (m : Memory) : (s.setBuf m).t = s.t := rfl
@[simp] theorem setBuf_f (m : Memory) : (s.setBuf m).f = s.f := rfl
@[simp] theorem setBuf_buf (m : Memory) : (s.setBuf m).buf = m := rfl
@[simp] theorem setBuf_buflen (m : Memory) : (s.setBuf m).buflen = s.buflen := rfl
@[simp] theorem setBuf_nn (m : Memory) : (s.setBuf m).nn = s.nn := rfl
@[simp] theorem setBuf_kk (m : Memory) : (s.setBuf m).kk = s.kk := rfl
@[simp] theorem setBuf_phase (m : Memory) : (s.setBuf m).phase = s.phase := rfl
@[simp] theorem setBuf_v (m : Memory) : (s.setBuf m).v = s.v := rfl
@[simp] theorem setBuf_commands (m : Memory) : (s.setBuf m).commands = s.commands := rfl
@[simp] theorem setBuf_responses (m : Memory) : (s.setBuf m).responses = s.responses := rfl
@[simp] theorem setBuf_ci (m : Memory) : (s.setBuf m).ci = s.ci := rfl
@[simp] theorem setBuf_resets (m : Memory) : (s.setBuf m).resets = s.resets := rfl

@[simp] theorem setBuflen_h (n : Nat) : (s.setBuflen n).h = s.h := rfl
@[simp] theorem setBuflen_t (n : Nat) : (s.setBuflen n).t = s.t := rfl
@[simp] theorem setBuflen_f (n : Nat) : (s.setBuflen n).f = s.f := rfl
@[simp] theorem setBuflen_buf (n : Nat) : (s.setBuflen n).buf = s.buf := rfl
@[simp] theorem setBuflen_buflen (n : Nat) : (s.setBuflen n).buflen = Fin.ofNat 129 n := rfl
@[simp] theorem setBuflen_nn (n : Nat) : (s.setBuflen n).nn = s.nn := rfl
@[simp] theorem setBuflen_kk (n : Nat) : (s.setBuflen n).kk = s.kk := rfl
@[simp] theorem setBuflen_phase (n : Nat) : (s.setBuflen n).phase = s.phase := rfl
@[simp] theorem setBuflen_v (n : Nat) : (s.setBuflen n).v = s.v := rfl
@[simp] theorem setBuflen_commands (n : Nat) : (s.setBuflen n).commands = s.commands := rfl
@[simp] theorem setBuflen_responses (n : Nat) : (s.setBuflen n).responses = s.responses := rfl
@[simp] theorem setBuflen_ci (n : Nat) : (s.setBuflen n).ci = s.ci := rfl
@[simp] theorem setBuflen_resets (n : Nat) : (s.setBuflen n).resets = s.resets := rfl

@[simp] theorem setPhase_h (p : Phase) : (s.setPhase p).h = s.h := rfl
@[simp] theorem setPhase_t (p : Phase) : (s.setPhase p).t = s.t := rfl
@[simp] theorem setPhase_f (p : Phase) : (s.setPhase p).f = s.f := rfl
@[simp] theorem setPhase_buf (p : Phase) : (s.setPhase p).buf = s.buf := rfl
@[simp] theorem setPhase_buflen (p : Phase) : (s.setPhase p).buflen = s.buflen := rfl
@[simp] theorem setPhase_nn (p : Phase) : (s.setPhase p).nn = s.nn := rfl
@[simp] theorem setPhase_kk (p : Phase) : (s.setPhase p).kk = s.kk := rfl
@[simp] theorem setPhase_phase (p : Phase) : (s.setPhase p).phase = p := rfl
@[simp] theorem setPhase_v (p : Phase) : (s.setPhase p).v = s.v := rfl
@[simp] theorem setPhase_commands (p : Phase) : (s.setPhase p).commands = s.commands := rfl
@[simp] theorem setPhase_responses (p : Phase) : (s.setPhase p).responses = s.responses := rfl
@[simp] theorem setPhase_ci (p : Phase) : (s.setPhase p).ci = s.ci := rfl
@[simp] theorem setPhase_resets (p : Phase) : (s.setPhase p).resets = s.resets := rfl

@[simp] theorem setChain_h (h : Vector Word 8) (v : Vector Word 16) : (s.setChain h v).h = h := rfl
@[simp] theorem setChain_t (h : Vector Word 8) (v : Vector Word 16) : (s.setChain h v).t = s.t := rfl
@[simp] theorem setChain_f (h : Vector Word 8) (v : Vector Word 16) : (s.setChain h v).f = s.f := rfl
@[simp] theorem setChain_buf (h : Vector Word 8) (v : Vector Word 16) : (s.setChain h v).buf = s.buf := rfl
@[simp] theorem setChain_buflen (h : Vector Word 8) (v : Vector Word 16) : (s.setChain h v).buflen = s.buflen := rfl
@[simp] theorem setChain_nn (h : Vector Word 8) (v : Vector Word 16) : (s.setChain h v).nn = s.nn := rfl
@[simp] theorem setChain_kk (h : Vector Word 8) (v : Vector Word 16) : (s.setChain h v).kk = s.kk := rfl
@[simp] theorem setChain_phase (h : Vector Word 8) (v : Vector Word 16) : (s.setChain h v).phase = s.phase := rfl
@[simp] theorem setChain_v (h : Vector Word 8) (v : Vector Word 16) : (s.setChain h v).v = v := rfl
@[simp] theorem setChain_commands (h : Vector Word 8) (v : Vector Word 16) : (s.setChain h v).commands = s.commands := rfl
@[simp] theorem setChain_responses (h : Vector Word 8) (v : Vector Word 16) : (s.setChain h v).responses = s.responses := rfl
@[simp] theorem setChain_ci (h : Vector Word 8) (v : Vector Word 16) : (s.setChain h v).ci = s.ci := rfl
@[simp] theorem setChain_resets (h : Vector Word 8) (v : Vector Word 16) : (s.setChain h v).resets = s.resets := rfl

@[simp] theorem incT_h (k : Nat) : (s.incT k).h = s.h := rfl
@[simp] theorem incT_t (k : Nat) : (s.incT k).t = incCounter s.t k := rfl
@[simp] theorem incT_f (k : Nat) : (s.incT k).f = s.f := rfl
@[simp] theorem incT_buf (k : Nat) : (s.incT k).buf = s.buf := rfl
@[simp] theorem incT_buflen (k : Nat) : (s.incT k).buflen = s.buflen := rfl
@[simp] theorem incT_nn (k : Nat) : (s.incT k).nn = s.nn := rfl
@[simp] theorem incT_kk (k : Nat) : (s.incT k).kk = s.kk := rfl
@[simp] theorem incT_phase (k : Nat) : (s.incT k).phase = s.phase := rfl
@[simp] theorem incT_v (k : Nat) : (s.incT k).v = s.v := rfl
@[simp] theorem incT_commands (k : Nat) : (s.incT k).commands = s.commands := rfl
@[simp] theorem incT_responses (k : Nat) : (s.incT k).responses = s.responses := rfl
@[simp] theorem incT_ci (k : Nat) : (s.incT k).ci = s.ci := rfl
@[simp] theorem incT_resets (k : Nat) : (s.incT k).resets = s.resets := rfl

@[simp] theorem markLast_h : (s.markLast).h = s.h := rfl
@[simp] theorem markLast_t : (s.markLast).t = s.t := rfl
@[simp] theorem markLast_f : (s.markLast).f = markLastBlock s.f := rfl
@[simp] theorem markLast_buf : (s.markLast).buf = s.buf := rfl
@[simp] theorem markLast_buflen : (s.markLast).buflen = s.buflen := rfl
@[simp] theorem markLast_nn : (s.markLast).nn = s.nn := rfl
@[simp] theorem markLast_kk : (s.markLast).kk = s.kk := rfl
@[simp] theorem markLast_phase : (s.markLast).phase = s.phase := rfl
@[simp] theorem markLast_v : (s.markLast).v = s.v := rfl
@[simp] theorem markLast_commands : (s.markLast).commands = s.commands := rfl
@[simp] theorem markLast_responses : (s.markLast).responses = s.responses := rfl
@[simp] theorem markLast_ci : (s.markLast).ci = s.ci := rfl
@[simp] theorem markLast_resets : (s.markLast).resets = s.resets := rfl

@[simp] theorem loadContext_h (nn kk : Byte) : (s.loadContext nn kk).h = initialChain nn kk := rfl
@[simp] theorem loadContext_t (nn kk : Byte) : (s.loadContext nn kk).t = #v[0, 0] := rfl
@[simp] theorem loadContext_f (nn kk : Byte) : (s.loadContext nn kk).f = clearedFlags := rfl
@[simp] theorem loadContext_buf (nn kk : Byte) : (s.loadContext nn kk).buf = s.buf := rfl
@[simp] theorem loadContext_buflen (nn kk : Byte) : (s.loadContext nn kk).buflen = 0 := rfl
@[simp] theorem loadContext_nn (nn kk : Byte) : (s.loadContext nn kk).nn = nn := rfl
@[simp] theorem loadContext_kk (nn kk : Byte) : (s.loadContext nn kk).kk = kk := rfl
@[simp] theorem loadContext_phase (nn kk : Byte) : (s.loadContext nn kk).phase = .active := rfl
@[simp] theorem loadContext_v (nn kk : Byte) : (s.loadContext nn kk).v = s.v := rfl
@[simp] theorem loadContext_commands (nn kk : Byte) : (s.loadContext nn kk).commands = s.commands := rfl
@[simp] theorem loadContext_responses (nn kk : Byte) : (s.loadContext nn kk).responses = s.responses := rfl
@[simp] theorem loadContext_ci (nn kk : Byte) : (s.loadContext nn kk).ci = s.ci := rfl
@[simp] theorem loadContext_resets (nn kk : Byte) : (s.loadContext nn kk).resets = s.resets := rfl

@[simp] theorem respond_h (st : Status) (r : List Byte) : (respond s st r).h = s.h := rfl
@[simp] theorem respond_t (st : Status) (r : List Byte) : (respond s st r).t = s.t := rfl
@[simp] theorem respond_f (st : Status) (r : List Byte) : (respond s st r).f = s.f := rfl
@[simp] theorem respond_buf (st : Status) (r : List Byte) : (respond s st r).buf = s.buf := rfl
@[simp] theorem respond_buflen (st : Status) (r : List Byte) : (respond s st r).buflen = s.buflen := rfl
@[simp] theorem respond_nn (st : Status) (r : List Byte) : (respond s st r).nn = s.nn := rfl
@[simp] theorem respond_kk (st : Status) (r : List Byte) : (respond s st r).kk = s.kk := rfl
@[simp] theorem respond_phase (st : Status) (r : List Byte) : (respond s st r).phase = s.phase := rfl
@[simp] theorem respond_v (st : Status) (r : List Byte) : (respond s st r).v = s.v := rfl
@[simp] theorem respond_commands (st : Status) (r : List Byte) : (respond s st r).commands = s.commands := rfl
@[simp] theorem respond_responses (st : Status) (r : List Byte) : (respond s st r).responses = s.responses ++ [st.code :: r] := rfl
@[simp] theorem respond_ci (st : Status) (r : List Byte) : (respond s st r).ci = s.ci := rfl
@[simp] theorem respond_resets (st : Status) (r : List Byte) : (respond s st r).resets = s.resets := rfl

@[simp] theorem takeException_h (e : Exception) : (takeException s e).h = s.h := rfl
@[simp] theorem takeException_t (e : Exception) : (takeException s e).t = s.t := rfl
@[simp] theorem takeException_f (e : Exception) : (takeException s e).f = s.f := rfl
@[simp] theorem takeException_buf (e : Exception) : (takeException s e).buf = s.buf := rfl
@[simp] theorem takeException_buflen (e : Exception) : (takeException s e).buflen = s.buflen := rfl
@[simp] theorem takeException_nn (e : Exception) : (takeException s e).nn = s.nn := rfl
@[simp] theorem takeException_kk (e : Exception) : (takeException s e).kk = s.kk := rfl
@[simp] theorem takeException_phase (e : Exception) : (takeException s e).phase = s.phase := rfl
@[simp] theorem takeException_v (e : Exception) : (takeException s e).v = s.v := rfl
@[simp] theorem takeException_commands (e : Exception) : (takeException s e).commands = s.commands := rfl
@[simp] theorem takeException_responses (e : Exception) : (takeException s e).responses = s.responses ++ [[e.code]] := rfl
@[simp] theorem takeException_ci (e : Exception) : (takeException s e).ci = s.ci := rfl
@[simp] theorem takeException_resets (e : Exception) : (takeException s e).resets = s.resets := rfl

@[simp] theorem consume_h (rest : List HostEvent) (n : Nat) : (s.consume rest n).h = s.h := rfl
@[simp] theorem consume_t (rest : List HostEvent) (n : Nat) : (s.consume rest n).t = s.t := rfl
@[simp] theorem consume_f (rest : List HostEvent) (n : Nat) : (s.consume rest n).f = s.f := rfl
@[simp] theorem consume_buf (rest : List HostEvent) (n : Nat) : (s.consume rest n).buf = s.buf := rfl
@[simp] theorem consume_buflen (rest : List HostEvent) (n : Nat) : (s.consume rest n).buflen = s.buflen := rfl
@[simp] theorem consume_nn (rest : List HostEvent) (n : Nat) : (s.consume rest n).nn = s.nn := rfl
@[simp] theorem consume_kk (rest : List HostEvent) (n : Nat) : (s.consume rest n).kk = s.kk := rfl
@[simp] theorem consume_phase (rest : List HostEvent) (n : Nat) : (s.consume rest n).phase = s.phase := rfl
@[simp] theorem consume_v (rest : List HostEvent) (n : Nat) : (s.consume rest n).v = s.v := rfl
@[simp] theorem consume_commands (rest : List HostEvent) (n : Nat) : (s.consume rest n).commands = rest := rfl
@[simp] theorem consume_responses (rest : List HostEvent) (n : Nat) : (s.consume rest n).responses = s.responses := rfl
@[simp] theorem consume_ci (rest : List HostEvent) (n : Nat) : (s.consume rest n).ci = s.ci + n := rfl
@[simp] theorem consume_resets (rest : List HostEvent) (n : Nat) : (s.consume rest n).resets = s.resets := rfl

@[simp] theorem takeReset_h : (s.takeReset).h = Config.resetH s.resets := rfl
@[simp] theorem takeReset_t : (s.takeReset).t = Config.resetT s.resets := rfl
@[simp] theorem takeReset_f : (s.takeReset).f = Config.resetF s.resets := rfl
@[simp] theorem takeReset_buf : (s.takeReset).buf = [] := rfl
@[simp] theorem takeReset_buflen : (s.takeReset).buflen = Config.resetBuflen s.resets := rfl
@[simp] theorem takeReset_nn : (s.takeReset).nn = Config.resetNn s.resets := rfl
@[simp] theorem takeReset_kk : (s.takeReset).kk = Config.resetKk s.resets := rfl
@[simp] theorem takeReset_phase : (s.takeReset).phase = .idle := rfl
@[simp] theorem takeReset_v : (s.takeReset).v = Config.resetV s.resets := rfl
@[simp] theorem takeReset_commands : (s.takeReset).commands = s.commands := rfl
@[simp] theorem takeReset_responses : (s.takeReset).responses = s.responses := rfl
@[simp] theorem takeReset_ci : (s.takeReset).ci = s.ci := rfl
@[simp] theorem takeReset_resets : (s.takeReset).resets = s.resets + 1 := rfl

theorem setBuflen_val (n : Nat) (h : n ≤ 128) : (s.setBuflen n).buflen.val = n := by
  simp [Fin.ofNat]; omega

end Sys2Proof.Machine
end

