-- ==== Sys2Proof/Laws/Ops.lean ====
section
/-! SUPPORT. What each shared operation over the state can do, said once: the buffer accesses, `COMPRESS`, the two branches of
the buffering loop, and the response of a command. -/

namespace Sys2Proof.Machine

theorem ok_bind {α β : Type} (a : α) (f : α → Except Fault β) : (Except.ok a >>= f) = f a := rfl

theorem error_bind {α β : Type} (e : Fault) (f : α → Except Fault β) : (Except.error e >>= f) = .error e := rfl

/-- A write inside the buffer happens (R31, R44). -/
theorem memWrite_ok (s : State) (addr : Nat) (bytes : List Byte) (h : addr + bytes.length ≤ 128) :
    memWrite s addr bytes = .ok (s.setBuf (Memory.writeBytes s.buf addr bytes)) := by
  simp [memWrite, h]

/-- A read answers a string exactly when it lies inside the buffer and each of its bytes is held (R31). -/
theorem memRead_ok_iff (s : State) (addr n : Nat) (bs : List Byte) :
    memRead s addr n = .ok bs ↔
      addr + n ≤ 128 ∧ bs.length = n ∧ ∀ i, i < n → Memory.read s.buf (addr + i) = bs[i]? := by
  rw [← Memory.readBytes_eq_some]
  simp only [memRead]
  split
  · rename_i h
    split
    · rename_i bytes hb
      simp [h, hb]
    · rename_i hb
      simp [hb]
  · rename_i h
    simp [h]

/-- A read of bytes that are all held answers. -/
theorem memRead_written (s : State) (addr n : Nat) (hr : addr + n ≤ 128)
    (hw : ∀ i, i < n → (Memory.read s.buf (addr + i)).isSome = true) : ∃ bs, memRead s addr n = .ok bs := by
  obtain ⟨bs, hbs⟩ := Memory.readBytes_isSome s.buf addr n hw
  exact ⟨bs, by simp [memRead, hr, hbs]⟩

/-- What `COMPRESS` does when the block can be read (R75). -/
theorem compress_of_read (s : State) (block : List Byte) (h : memRead s 0 128 = .ok block) :
    compress s = .ok (s.setChain (compressBlock s.h s.t s.f block) (finalV s.h s.t s.f block)) := by
  simp [compress, h]

/-- Everything `COMPRESS` can do when it answers (R75, R81). -/
theorem compress_ok (s s' : State) (h : compress s = .ok s') :
    ∃ block, memRead s 0 128 = .ok block ∧
      s' = s.setChain (compressBlock s.h s.t s.f block) (finalV s.h s.t s.f block) := by
  simp only [compress] at h
  split at h
  · rename_i block hb
    exact ⟨block, hb, (Except.ok.inj h).symm⟩
  · cases h

/-- The fill count stored back is the same state. -/
theorem setBuflen_self (s : State) : s.setBuflen s.buflen.val = s := by
  cases s
  simp [State.setBuflen]

/-- Bytes that fit are kept buffered (R90, second branch). -/
theorem bufferRest_ok (rest : List Byte) (s : State) (h : s.buflen.val + rest.length ≤ 128) :
    bufferRest rest s = .ok ((s.setBuf (Memory.writeBytes s.buf s.buflen.val rest)).setBuflen
      (s.buflen.val + rest.length)) := by
  simp [bufferRest, memWrite_ok s _ _ h]

/-- The state after a completed block whose bytes are `block` (R90, first branch). -/
def afterBlock (chunk block : List Byte) (s : State) : State :=
  ((((s.setBuf (Memory.writeBytes s.buf s.buflen.val chunk)).setBuflen 128).incT 128).setChain
    (compressBlock s.h (incCounter s.t 128) s.f block) (finalV s.h (incCounter s.t 128) s.f block)).setBuflen 0

@[simp] theorem afterBlock_h (chunk block : List Byte) (s : State) : (afterBlock chunk block s).h =
    compressBlock s.h (incCounter s.t 128) s.f block := rfl
@[simp] theorem afterBlock_t (chunk block : List Byte) (s : State) : (afterBlock chunk block s).t = incCounter s.t 128 := rfl
@[simp] theorem afterBlock_f (chunk block : List Byte) (s : State) : (afterBlock chunk block s).f = s.f := rfl
@[simp] theorem afterBlock_buf (chunk block : List Byte) (s : State) : (afterBlock chunk block s).buf =
    Memory.writeBytes s.buf s.buflen.val chunk := rfl
@[simp] theorem afterBlock_buflen (chunk block : List Byte) (s : State) : (afterBlock chunk block s).buflen = 0 := rfl
@[simp] theorem afterBlock_nn (chunk block : List Byte) (s : State) : (afterBlock chunk block s).nn = s.nn := rfl
@[simp] theorem afterBlock_kk (chunk block : List Byte) (s : State) : (afterBlock chunk block s).kk = s.kk := rfl
@[simp] theorem afterBlock_phase (chunk block : List Byte) (s : State) : (afterBlock chunk block s).phase = s.phase := rfl
@[simp] theorem afterBlock_v (chunk block : List Byte) (s : State) : (afterBlock chunk block s).v =
    finalV s.h (incCounter s.t 128) s.f block := rfl
@[simp] theorem afterBlock_commands (chunk block : List Byte) (s : State) : (afterBlock chunk block s).commands = s.commands := rfl
@[simp] theorem afterBlock_responses (chunk block : List Byte) (s : State) : (afterBlock chunk block s).responses = s.responses := rfl
@[simp] theorem afterBlock_ci (chunk block : List Byte) (s : State) : (afterBlock chunk block s).ci = s.ci := rfl
@[simp] theorem afterBlock_resets (chunk block : List Byte) (s : State) : (afterBlock chunk block s).resets = s.resets := rfl

/-- A chunk that fills the buffer completes a block (R90, first branch). -/
theorem completeBlock_of_read (chunk block : List Byte) (s : State) (h : s.buflen.val + chunk.length ≤ 128)
    (hb : Memory.readBytes (Memory.writeBytes s.buf s.buflen.val chunk) 0 128 = some block) :
    completeBlock chunk s = .ok (afterBlock chunk block s) := by
  simp only [completeBlock, memWrite_ok s _ _ h]
  rw [compress_of_read _ block (by simp [memRead, hb])]
  simp [afterBlock]

/-- A block completed with a chunk is the chunk buffered and then the full buffer completed. -/
theorem completeBlock_split (chunk : List Byte) (s : State) (h : s.buflen.val + chunk.length = 128) :
    completeBlock chunk s = bufferRest chunk s >>= completeBlock [] := by
  rw [bufferRest_ok chunk s (by omega), ok_bind]
  have hv : (((s.setBuf (Memory.writeBytes s.buf s.buflen.val chunk)).setBuflen (s.buflen.val + chunk.length)).buflen.val)
      = 128 := by rw [h]; exact setBuflen_val _ 128 (by omega)
  simp only [completeBlock]
  rw [memWrite_ok s _ _ (by omega), memWrite_ok _ _ _ (by rw [hv]; simp)]
  rw [h]
  rfl

/-- A completed block leaves an empty buffer. -/
theorem completeBlock_buflen (chunk : List Byte) (s s' : State) (h : completeBlock chunk s = .ok s') :
    s'.buflen.val = 0 := by
  simp only [completeBlock] at h
  split at h
  · cases h
  · split at h
    · cases h
    · cases h; rfl

end Sys2Proof.Machine
end

