-- ==== Sys2Proof/Laws/Words.lean ====
section
/-! SUPPORT. The words: the bits of a rotation, the byte-order conversions as numbers, and the counter as a number. -/

namespace Sys2Proof.Machine

/-- Bit `k` of a rotation is bit `(k + n) mod 64` of the word (R63). -/
theorem rotr64_getLsbD (w : Word) (n k : Nat) (hk : k < 64) :
    (rotr64 w n).getLsbD k = w.getLsbD ((k + n % 64) % 64) := by
  have hs : n % 64 < 64 := Nat.mod_lt _ (by omega)
  simp only [rotr64]
  split
  · rename_i h; rw [h]; congr 1; omega
  · have hor : (w >>> (n % 64)) + (w <<< (64 - n % 64)) = (w >>> (n % 64)) ||| (w <<< (64 - n % 64)) := by
      apply BitVec.add_eq_or_of_and_eq_zero
      apply BitVec.eq_of_getLsbD_eq
      intro i hi
      simp only [BitVec.getLsbD_and, BitVec.getLsbD_ushiftRight, BitVec.getLsbD_shiftLeft,
        BitVec.getLsbD_zero, Bool.and_eq_false_iff]
      by_cases h2 : i < 64 - n % 64
      · right; simp [h2]
      · left; apply BitVec.getLsbD_of_ge; omega
    rw [hor, BitVec.getLsbD_or, BitVec.getLsbD_ushiftRight, BitVec.getLsbD_shiftLeft]
    by_cases h2 : k < 64 - n % 64
    · simp only [h2, decide_true, Bool.not_true, Bool.and_false, Bool.false_and, Bool.or_false]
      congr 1; omega
    · rw [BitVec.getLsbD_of_ge w (n % 64 + k) (by omega)]
      simp only [hk, decide_true, h2, decide_false, Bool.not_false, Bool.and_self, Bool.true_and, Bool.false_or]
      congr 1; omega

/-- No bit is lost: a rotation by a fixed amount can be undone. -/
theorem rotr64_injective (n : Nat) (w u : Word) (h : rotr64 w n = rotr64 u n) : w = u := by
  apply BitVec.eq_of_getLsbD_eq
  intro i hi
  have := congrArg (fun z => z.getLsbD ((i + (64 - n % 64)) % 64)) h
  rw [rotr64_getLsbD _ _ _ (Nat.mod_lt _ (by omega)), rotr64_getLsbD _ _ _ (Nat.mod_lt _ (by omega))] at this
  rwa [show ((i + (64 - n % 64)) % 64 + n % 64) % 64 = i by omega] at this

theorem leNat_lt (s : List Byte) : leNat s < 256 ^ s.length := by
  induction s with
  | nil => simp [leNat]
  | cons b bs ih =>
    simp only [leNat, List.length_cons, Nat.pow_succ]
    have := b.isLt
    omega

theorem byteOf_toNat (w : Word) (k : Nat) : (byteOf w k).toNat = w.toNat / 2 ^ (8 * k) % 256 := by
  simp [byteOf, BitVec.toNat_setWidth, Nat.shiftRight_eq_div_pow]

theorem load64_toNat (s : List Byte) (h : s.length = 8) : (load64 s).toNat = leNat s := by
  have := leNat_lt s
  rw [h] at this
  simp only [load64, BitVec.toNat_ofNat]
  exact Nat.mod_eq_of_lt (by simpa using this)

@[simp] theorem store64_length (w : Word) : (store64 w).length = 8 := rfl

theorem store64_getElem? (w : Word) (k : Nat) (hk : k < 8) : (store64 w)[k]? = some (byteOf w k) := by
  have : k = 0 ∨ k = 1 ∨ k = 2 ∨ k = 3 ∨ k = 4 ∨ k = 5 ∨ k = 6 ∨ k = 7 := by omega
  rcases this with rfl | rfl | rfl | rfl | rfl | rfl | rfl | rfl <;> rfl

@[simp] theorem zeros_length (n : Nat) : (zeros n).length = n := List.length_replicate

theorem zeros_getElem? (n k : Nat) : (zeros n)[k]? = if k < n then some 0 else none := by
  simp [zeros, List.getElem?_replicate]

/-- Two counters of the same words are equal. -/
theorem words2_ext (a b : Vector Word 2) (h0 : a[0] = b[0]) (h1 : a[1] = b[1]) : a = b := by
  apply Vector.ext
  intro i hi
  have : i = 0 ∨ i = 1 := by omega
  rcases this with rfl | rfl <;> assumption

/-- The counter grows by the addend modulo `2^128` (R66). -/
theorem counterValue_incCounter (t : Vector Word 2) (k : Nat) (hk : k ≤ 128) :
    counterValue (incCounter t k) = (counterValue t + k) % 2 ^ 128 := by
  have h0 := t[0].isLt
  have h1 := t[1].isLt
  have hl : (t[0] + BitVec.ofNat 64 k).toNat = (t[0].toNat + k) % 2 ^ 64 := by
    rw [BitVec.toNat_add, BitVec.toNat_ofNat]; omega
  have hone : (1 : Word).toNat = 1 := rfl
  simp only [counterValue, incCounter, Vector.getElem_mk, List.getElem_toArray, List.getElem_cons_zero,
    List.getElem_cons_succ]
  by_cases h : (t[0].toNat + k) % 2 ^ 64 < k
  · rw [show counterCarry (t[0] + BitVec.ofNat 64 k) k = true by rw [counterCarry, hl]; exact decide_eq_true h,
      if_pos rfl, hl, BitVec.toNat_add t[1], hone]
    omega
  · rw [show counterCarry (t[0] + BitVec.ofNat 64 k) k = false by rw [counterCarry, hl]; exact decide_eq_false h,
      if_neg (by simp), hl]
    omega

theorem counterValue_lt (t : Vector Word 2) : counterValue t < 2 ^ 128 := by
  have h0 := t[0].isLt
  have h1 := t[1].isLt
  simp only [counterValue]
  omega

/-- The counter words are those of the number they stand for. -/
theorem eq_counterWords (t : Vector Word 2) (n : Nat) (h : counterValue t = n % 2 ^ 128) : t = counterWords n := by
  have h0 := t[0].isLt
  have h1 := t[1].isLt
  simp only [counterValue] at h
  apply words2_ext
  · apply BitVec.eq_of_toNat_eq
    simp only [counterWords, Vector.getElem_mk, List.getElem_toArray, List.getElem_cons_zero, BitVec.toNat_ofNat]
    omega
  · apply BitVec.eq_of_toNat_eq
    simp only [counterWords, Vector.getElem_mk, List.getElem_toArray, List.getElem_cons_succ,
      List.getElem_cons_zero, BitVec.toNat_ofNat]
    omega

/-- `INC_T(128)` keeps the low counter word a multiple of the block size (R28). -/
theorem incCounter_block (t : Vector Word 2) (h : t[0].toNat % 128 = 0) : (incCounter t 128)[0].toNat % 128 = 0 := by
  have : (incCounter t 128)[0] = t[0] + BitVec.ofNat 64 128 := rfl
  rw [this, BitVec.toNat_add, BitVec.toNat_ofNat]; omega

end Sys2Proof.Machine
end

