-- ==== Sys2Proof/Laws/Absorb.lean ====
section
/-! SUPPORT. The loop of 44_update.md R90 is the absorption of one byte after another (20_memory.md R37): what it does, byte by
byte, to every register. From it follow the end of the loop, chunk invariance and the closed form of R95. -/

namespace Sys2Proof.Machine

/-- One byte absorbed: a full buffer is completed first, then the byte is buffered (R93). -/
def absorbByte (s : State) (b : Byte) : Except Fault State :=
  if s.buflen.val = 128 then completeBlock [] s >>= bufferRest [b] else bufferRest [b] s

/-- Bytes that fit, taken one by one, are buffered. -/
theorem foldlM_absorbByte_fits (rest : List Byte) (s : State) (h : s.buflen.val + rest.length ≤ 128) :
    rest.foldlM absorbByte s = bufferRest rest s := by
  induction rest generalizing s with
  | nil =>
    rw [bufferRest_ok [] s h]
    simp only [List.foldlM_nil, Memory.writeBytes_nil, List.length_nil, Nat.add_zero]
    exact congrArg Except.ok (setBuflen_self s).symm
  | cons b bs ih =>
    simp only [List.length_cons] at h
    have hone : absorbByte s b = .ok ((s.setBuf (Memory.writeBytes s.buf s.buflen.val [b])).setBuflen
        (s.buflen.val + 1)) := by
      rw [absorbByte, if_neg (by omega), bufferRest_ok [b] s (by simp; omega)]
      rfl
    have hv : ((s.setBuf (Memory.writeBytes s.buf s.buflen.val [b])).setBuflen (s.buflen.val + 1)).buflen.val
        = s.buflen.val + 1 := setBuflen_val _ _ (by omega)
    rw [List.foldlM_cons, hone, ok_bind, ih _ (by rw [hv]; omega), bufferRest_ok _ _ (by rw [hv]; omega),
      bufferRest_ok (b :: bs) s (by simp; omega), hv]
    simp only [List.length_cons, setBuflen_buf, setBuf_buf, Memory.writeBytes]
    rw [show s.buflen.val + 1 + bs.length = s.buflen.val + (bs.length + 1) by omega]
    rfl

/-- On a full buffer the next byte completes the block first. -/
theorem foldlM_absorbByte_full (b : Byte) (bs : List Byte) (s : State) (h : s.buflen.val = 128) :
    (b :: bs).foldlM absorbByte s = completeBlock [] s >>= fun s1 => (b :: bs).foldlM absorbByte s1 := by
  rw [List.foldlM_cons, absorbByte, if_pos h]
  cases hc : completeBlock [] s with
  | error e => rfl
  | ok s1 =>
    rw [ok_bind, ok_bind, List.foldlM_cons, absorbByte, if_neg]
    rw [completeBlock_buflen [] s s1 hc]; omega

/-- The loop of R90, within its bound of turns, absorbs the bytes one by one. -/
theorem absorbLoop_eq_foldlM (turns : Nat) (rest : List Byte) (s : State)
    (hb : rest.length = 0 ∨ (1 ≤ turns ∧ rest.length ≤ (128 - s.buflen.val) + 128 * (turns - 1))) :
    absorbLoop turns rest s = rest.foldlM absorbByte s := by
  induction turns generalizing rest s with
  | zero =>
    have : rest = [] := List.length_eq_zero_iff.1 (by omega)
    subst this
    simp [absorbLoop]; rfl
  | succ turns ih =>
    rw [absorbLoop]
    split
    · rename_i h; subst h; rfl
    · rename_i hne
      have hpos : rest.length ≠ 0 := fun h => hne (List.length_eq_zero_iff.1 h)
      have hlt : s.buflen.val ≤ 128 := by omega
      simp only [freeRoom]
      by_cases hgt : rest.length > 128 - s.buflen.val
      · rw [if_pos hgt]
        have htake : (rest.take (128 - s.buflen.val)).length = 128 - s.buflen.val := by
          rw [List.length_take]; omega
        have hdrop : (rest.drop (128 - s.buflen.val)).length = rest.length - (128 - s.buflen.val) := by
          rw [List.length_drop]
        obtain ⟨b, bs, hbs⟩ : ∃ b bs, rest.drop (128 - s.buflen.val) = b :: bs := by
          cases hd : rest.drop (128 - s.buflen.val) with
          | nil => rw [hd] at hdrop; simp at hdrop; omega
          | cons b bs => exact ⟨b, bs, rfl⟩
        conv => rhs; rw [← List.take_append_drop (128 - s.buflen.val) rest, List.foldlM_append]
        rw [foldlM_absorbByte_fits _ s (by omega), completeBlock_split _ s (by omega),
          bufferRest_ok _ s (by omega), ok_bind, ok_bind, hbs]
        rw [foldlM_absorbByte_full b bs _ (by rw [htake]; exact setBuflen_val _ _ (by omega) |>.trans (by omega))]
        rw [← hbs]
        cases hc : completeBlock [] _ with
        | error e => rfl
        | ok s1 =>
          rw [ok_bind]
          refine ih _ s1 (Or.inr ?_)
          rw [completeBlock_buflen [] _ s1 hc, hdrop]
          omega
      · rw [if_neg hgt, foldlM_absorbByte_fits rest s (by omega)]
        cases hc : bufferRest rest s with
        | error e => rfl
        | ok s1 => exact ih [] s1 (Or.inl rfl)

/-- `ABSORB` is the absorption of its bytes one by one; its bound of turns is never exceeded (R90, R128). -/
theorem absorb_eq_foldlM (data : List Byte) (s : State) : absorb data s = data.foldlM absorbByte s := by
  refine absorbLoop_eq_foldlM _ data s (Or.inr ⟨by omega, ?_⟩)
  have : data.length < 128 * (data.length / 128) + 128 := by omega
  omega

/-- A property that every absorbed byte keeps, `ABSORB` keeps. -/
theorem absorb_keeps (P : State → Prop) (hP : ∀ s b s', P s → absorbByte s b = .ok s' → P s')
    (data : List Byte) (s s' : State) (hs : P s) (h : absorb data s = .ok s') : P s' := by
  rw [absorb_eq_foldlM] at h
  induction data generalizing s with
  | nil => cases h; exact hs
  | cons b bs ih =>
    rw [List.foldlM_cons] at h
    cases hb : absorbByte s b with
    | error e => rw [hb] at h; cases h
    | ok s1 => rw [hb, ok_bind] at h; exact ih s1 (hP s b s1 hs hb) h

/-- A byte absorbed where there is room is buffered. -/
theorem absorbByte_room (s : State) (b : Byte) (h : s.buflen.val < 128) :
    absorbByte s b = .ok ((s.setBuf (Memory.writeBytes s.buf s.buflen.val [b])).setBuflen (s.buflen.val + 1)) := by
  rw [absorbByte, if_neg (by omega), bufferRest_ok [b] s (by simp; omega), List.length_singleton]

/-- A byte absorbed on a full buffer completes the block and is then buffered alone. -/
theorem absorbByte_full (s : State) (b : Byte) (block : List Byte) (h : s.buflen.val = 128)
    (hb : Memory.readBytes s.buf 0 128 = some block) :
    absorbByte s b = .ok (((afterBlock [] block s).setBuf (Memory.writeBytes s.buf 0 [b])).setBuflen 1) := by
  have hz : (afterBlock [] block s).buflen.val = 0 := setBuflen_val _ 0 (by omega)
  have hm : (afterBlock [] block s).buf = s.buf := by simp [afterBlock]
  rw [absorbByte, if_pos h, completeBlock_of_read [] block s (by simp; omega) (by simpa using hb), ok_bind,
    bufferRest_ok _ _ (by rw [hz]; simp), hz, hm, List.length_singleton, Nat.zero_add]

/-- Everything one absorbed byte can do: it is buffered, after a full buffer has been completed. -/
theorem absorbByte_ok (s s' : State) (b : Byte) (h : absorbByte s b = .ok s') :
    (s.buflen.val < 128 ∧
      s' = (s.setBuf (Memory.writeBytes s.buf s.buflen.val [b])).setBuflen (s.buflen.val + 1)) ∨
    (s.buflen.val = 128 ∧ ∃ block, Memory.readBytes s.buf 0 128 = some block ∧
      s' = ((afterBlock [] block s).setBuf (Memory.writeBytes s.buf 0 [b])).setBuflen 1) := by
  have hle : s.buflen.val ≤ 128 := by omega
  rw [absorbByte] at h
  split at h
  · rename_i hfull
    right
    refine ⟨hfull, ?_⟩
    cases hb : Memory.readBytes s.buf 0 128 with
    | none =>
      exfalso
      simp [completeBlock, memWrite_ok s s.buflen.val [] (by simp; omega), compress, memRead, hb] at h
      cases h
    | some block =>
      refine ⟨block, rfl, ?_⟩
      rw [completeBlock_of_read [] block s (by simp; omega) hb, ok_bind, bufferRest_ok _ _ (by simp [afterBlock])] at h
      exact (Except.ok.inj h).symm
  · left
    refine ⟨by omega, ?_⟩
    rw [bufferRest_ok _ _ (by simp; omega)] at h
    exact (Except.ok.inj h).symm

/-- The registers `ABSORB` never writes, and the streams (R90, R29). -/
theorem absorb_frame (data : List Byte) (s s' : State) (h : absorb data s = .ok s') :
    s'.f = s.f ∧ s'.nn = s.nn ∧ s'.kk = s.kk ∧ s'.phase = s.phase ∧ s'.commands = s.commands ∧
      s'.responses = s.responses ∧ s'.ci = s.ci ∧ s'.resets = s.resets := by
  refine absorb_keeps (fun u => u.f = s.f ∧ u.nn = s.nn ∧ u.kk = s.kk ∧ u.phase = s.phase ∧
    u.commands = s.commands ∧ u.responses = s.responses ∧ u.ci = s.ci ∧ u.resets = s.resets)
    (fun u b u' hu hb => ?_) data s s' ⟨rfl, rfl, rfl, rfl, rfl, rfl, rfl, rfl⟩ h
  obtain ⟨-, rfl⟩ | ⟨-, block, -, rfl⟩ := absorbByte_ok u u' b hb
  · simpa using hu
  · simpa [afterBlock] using hu

/-- `ABSORB` keeps the canonical form of the buffer. -/
theorem absorb_keeps_wf (data : List Byte) (s s' : State) (hw : Memory.wf s.buf = true)
    (h : absorb data s = .ok s') : Memory.wf s'.buf = true := by
  refine absorb_keeps (fun u => Memory.wf u.buf = true) (fun u b u' hu hb => ?_) data s s' hw h
  obtain ⟨hlt, rfl⟩ | ⟨-, block, -, rfl⟩ := absorbByte_ok u u' b hb
  · exact Memory.wf_writeBytes _ _ _ (by simp; omega) hu
  · exact Memory.wf_writeBytes _ _ _ (by simp) hu

/-- An absorbed byte is held, with every valid byte before it, and the buffer is not empty. -/
theorem absorbByte_written (s s' : State) (b : Byte) (hv : s.validWritten) (h : absorbByte s b = .ok s') :
    s'.validWritten ∧ 1 ≤ s'.buflen.val := by
  obtain ⟨hlt, rfl⟩ | ⟨-, block, -, rfl⟩ := absorbByte_ok s s' b h
  · have hval : ((s.setBuf (Memory.writeBytes s.buf s.buflen.val [b])).setBuflen (s.buflen.val + 1)).buflen.val
        = s.buflen.val + 1 := setBuflen_val _ _ (by omega)
    refine ⟨fun a ha => ?_, by rw [hval]; omega⟩
    rw [hval] at ha
    simp only [setBuflen_buf, setBuf_buf, Memory.read_writeBytes, List.length_cons, List.length_nil]
    split
    · rename_i hr
      rw [show a - s.buflen.val = 0 by omega]; rfl
    · exact hv a (by omega)
  · have hval : (((afterBlock [] block s).setBuf (Memory.writeBytes s.buf 0 [b])).setBuflen 1).buflen.val = 1 := rfl
    refine ⟨fun a ha => ?_, by rw [hval]⟩
    rw [hval] at ha
    simp only [setBuflen_buf, setBuf_buf, Memory.read_writeBytes, List.length_cons, List.length_nil]
    rw [if_pos (by omega), show a - 0 = 0 by omega]; rfl

/-- Where the valid bytes are held, every byte is absorbed. -/
theorem absorbByte_total (s : State) (b : Byte) (hv : s.validWritten) : ∃ s', absorbByte s b = .ok s' := by
  have hle : s.buflen.val ≤ 128 := by omega
  rw [absorbByte]
  split
  · rename_i hfull
    obtain ⟨block, hb⟩ := Memory.readBytes_isSome s.buf 0 128 (fun i hi => by
      rw [Nat.zero_add]; exact hv i (by omega))
    rw [completeBlock_of_read [] block s (by simp; omega) hb, ok_bind, bufferRest_ok _ _ (by simp [afterBlock])]
    exact ⟨_, rfl⟩
  · rw [bufferRest_ok _ _ (by simp; omega)]
    exact ⟨_, rfl⟩

/-- Where the valid bytes are held, `ABSORB` completes and leaves the valid bytes held (R90, R110). -/
theorem absorb_total (data : List Byte) (s : State) (hv : s.validWritten) :
    ∃ s', absorb data s = .ok s' ∧ s'.validWritten ∧ (data ≠ [] → 1 ≤ s'.buflen.val) := by
  rw [absorb_eq_foldlM]
  induction data generalizing s with
  | nil => exact ⟨s, rfl, hv, fun h => absurd rfl h⟩
  | cons b bs ih =>
    obtain ⟨s1, h1⟩ := absorbByte_total s b hv
    obtain ⟨hv1, hl1⟩ := absorbByte_written s s1 b hv h1
    obtain ⟨s', h', hv', hl'⟩ := ih s1 hv1
    refine ⟨s', by rw [List.foldlM_cons, h1, ok_bind, h'], hv', fun _ => ?_⟩
    cases bs with
    | nil => cases h'; exact hl1
    | cons c cs => exact hl' (by simp)

/-- `ABSORB` writes no byte outside the buffer. -/
theorem absorb_outside (data : List Byte) (s s' : State) (h : absorb data s = .ok s') (a : Nat) (ha : 128 ≤ a) :
    Memory.read s'.buf a = Memory.read s.buf a := by
  refine absorb_keeps (fun u => Memory.read u.buf a = Memory.read s.buf a) (fun u b u' hu hb => ?_) data s s' rfl h
  obtain ⟨hlt, rfl⟩ | ⟨-, block, -, rfl⟩ := absorbByte_ok u u' b hb
  · simp only [setBuflen_buf, setBuf_buf, Memory.read_writeBytes, List.length_cons, List.length_nil]
    rw [if_neg (by omega)]; exact hu
  · simp only [setBuflen_buf, setBuf_buf, Memory.read_writeBytes, List.length_cons, List.length_nil]
    rw [if_neg (by omega)]; exact hu

/-- `ABSORB` counts whole blocks (R28 item 5). -/
theorem absorb_keeps_blockCount (data : List Byte) (s s' : State) (hs : s.t[0].toNat % 128 = 0)
    (h : absorb data s = .ok s') : s'.t[0].toNat % 128 = 0 := by
  refine absorb_keeps (fun u => u.t[0].toNat % 128 = 0) (fun u b u' hu hb => ?_) data s s' hs h
  obtain ⟨-, rfl⟩ | ⟨-, block, -, rfl⟩ := absorbByte_ok u u' b hb
  · exact hu
  · exact incCounter_block _ hu

/-- `ABSORB` keeps what R28 says of an active context. -/
theorem absorb_keeps_active (data : List Byte) (s s' : State) (hs : s.activeLegal) (h : absorb data s = .ok s') :
    s'.activeLegal := by
  obtain ⟨h1, h2, h3, h4⟩ := hs
  obtain ⟨f1, f2, f3, -⟩ := absorb_frame data s s' h
  obtain ⟨s'', hs'', hv, hl⟩ := absorb_total data s h3
  rw [h] at hs''; cases hs''
  refine ⟨by rw [f1]; exact h1, absorb_keeps_blockCount data s s' h2 h, hv, fun hz => ?_⟩
  by_cases hd : data = []
  · subst hd
    have : s = s' := by
      have : absorb [] s = .ok s := rfl
      rw [this] at h; exact Except.ok.inj h
    subst this; exact h4 hz
  · have := hl hd; omega

/-- Absorbing a byte does not look at the streams. -/
theorem absorbByte_consume (s s' : State) (b : Byte) (rest : List HostEvent) (n : Nat) (h : absorbByte s b = .ok s') :
    absorbByte (s.consume rest n) b = .ok (s'.consume rest n) := by
  obtain ⟨hlt, rfl⟩ | ⟨hfull, block, hr, rfl⟩ := absorbByte_ok s s' b h
  · exact absorbByte_room (s.consume rest n) b hlt
  · exact absorbByte_full (s.consume rest n) b block hfull hr

/-- Absorbing does not look at the streams. -/
theorem absorb_consume (data : List Byte) (s s' : State) (rest : List HostEvent) (n : Nat)
    (h : absorb data s = .ok s') :
    absorb data (s.consume rest n) = .ok (s'.consume rest n) := by
  rw [absorb_eq_foldlM] at h ⊢
  induction data generalizing s with
  | nil => cases h; rfl
  | cons b bs ih =>
    rw [List.foldlM_cons] at h ⊢
    cases hb : absorbByte s b with
    | error e => rw [hb] at h; cases h
    | ok s1 =>
      rw [hb, ok_bind] at h
      rw [absorbByte_consume s s1 b rest n hb, ok_bind, ih s1 h]

end Sys2Proof.Machine
end

