-- ==== Sys2Proof/Laws/Agree.lean ====
section
/-! SUPPORT. Two engines that hold the same context compute alike, whatever their stale bytes, `V` and `KK` (10_state.md R13, R16,
R18). -/

namespace Sys2Proof.Machine

/-- Two states hold the same context: everything a context computes from. -/
def SameContext (s u : State) : Prop :=
  s.h = u.h ∧ s.t = u.t ∧ s.f = u.f ∧ s.buflen = u.buflen ∧ s.nn = u.nn ∧
    ∀ a, a < s.buflen.val → Memory.read s.buf a = Memory.read u.buf a

/-- The valid bytes of the same context are the same. -/
theorem SameContext.memRead_eq (s u : State) (h : SameContext s u) (old : List Byte)
    (ho : memRead s 0 s.buflen.val = .ok old) : memRead u 0 u.buflen.val = .ok old := by
  obtain ⟨-, -, -, hl, -, hb⟩ := h
  rw [memRead_ok_iff] at ho ⊢
  rw [← hl]
  refine ⟨ho.1, ho.2.1, fun i hi => ?_⟩
  rw [← ho.2.2 i hi, Nat.zero_add, hb i hi]

/-- The same context absorbs a byte alike. -/
theorem SameContext.absorbByte (s u s' : State) (b : Byte) (h : SameContext s u) (hs : absorbByte s b = .ok s') :
    ∃ u', Machine.absorbByte u b = .ok u' ∧ SameContext s' u' := by
  have hread := h.memRead_eq s u
  obtain ⟨hh, ht, hf, hl, hn, hb⟩ := h
  have hlv : s.buflen.val = u.buflen.val := by rw [hl]
  obtain ⟨hlt, rfl⟩ | ⟨hfull, block, hr, rfl⟩ := absorbByte_ok s s' b hs
  · refine ⟨(u.setBuf (Memory.writeBytes u.buf u.buflen.val [b])).setBuflen (u.buflen.val + 1), ?_, by simpa using hh,
      by simpa using ht, by simpa using hf, by simp [hlv], by simpa using hn,
      fun a ha => ?_⟩
    · exact absorbByte_room u b (by omega)
    · rw [setBuflen_val _ _ (by omega)] at ha
      simp only [setBuflen_buf, setBuf_buf, Memory.read_writeBytes, List.length_cons, List.length_nil, hlv]
      split
      · rfl
      · exact hb a (by omega)
  · have hr' : memRead u 0 u.buflen.val = .ok block := hread block (by rw [hfull]; simp [memRead, hr])
    have hrb : Memory.readBytes u.buf 0 128 = some block := by
      rw [memRead_ok_iff] at hr'
      rw [Memory.readBytes_eq_some]
      exact ⟨by omega, fun i hi => hr'.2.2 i (by omega)⟩
    refine ⟨((afterBlock [] block u).setBuf (Memory.writeBytes u.buf 0 [b])).setBuflen 1, ?_, ?_, ?_,
      by simpa [afterBlock] using hf, by simp, by simpa [afterBlock] using hn, fun a ha => ?_⟩
    · exact absorbByte_full u b block (by omega) hrb
    · simp [afterBlock, hh, ht, hf]
    · simp [afterBlock, ht]
    · rw [setBuflen_val _ _ (by omega)] at ha
      simp only [setBuflen_buf, setBuf_buf, Memory.read_writeBytes, List.length_cons, List.length_nil]
      rw [if_pos (by omega), if_pos (by omega)]

/-- The same context absorbs alike. -/
theorem SameContext.absorb (data : List Byte) (s u s' : State) (h : SameContext s u) (hs : absorb data s = .ok s') :
    ∃ u', Machine.absorb data u = .ok u' ∧ SameContext s' u' := by
  rw [absorb_eq_foldlM] at hs ⊢
  induction data generalizing s u with
  | nil => cases hs; exact ⟨u, rfl, h⟩
  | cons b bs ih =>
    rw [List.foldlM_cons] at hs
    cases hb : Machine.absorbByte s b with
    | error e => rw [hb] at hs; cases hs
    | ok s1 =>
      rw [hb, ok_bind] at hs
      obtain ⟨u1, hu1, h1⟩ := h.absorbByte s u s1 b hb
      obtain ⟨u', hu', h'⟩ := ih s1 u1 h1 hs
      exact ⟨u', by rw [List.foldlM_cons, hu1, ok_bind, hu'], h'⟩

end Sys2Proof.Machine
end

