-- ==== Sys2Proof/Laws/Commands.lean ====
section
/-! SUPPORT. What each command answers, said once from each of its branches: the operand and phase checks, the key block, the last
block; and the decoder's answers. -/

namespace Sys2Proof.Machine

/-! ### The decoder -/

/-- A packet that decodes is one of the three commands, written out (R51). -/
theorem decode_ok_cases (p : Packet) (i : Instr) (h : decode p = .ok i) :
    (∃ nn key, p = 0x01 :: nn :: key ∧ i = .init nn key) ∨
    (∃ data, p = 0x02 :: 0x00 :: data ∧ i = .update data) ∨
    (p = [0x03, 0x00] ∧ i = .final) := by
  match p with
  | [] => cases h
  | [_] => cases h
  | opc :: arg :: pay =>
    simp only [decode] at h
    split at h
    · rename_i h1
      cases h; exact .inl ⟨arg, pay, by rw [h1], rfl⟩
    · split at h
      · rename_i h2
        split at h
        · rename_i h3
          cases h; exact .inr (.inl ⟨pay, by rw [h2, h3], rfl⟩)
        · cases h
      · split at h
        · rename_i h2
          split at h
          · rename_i h3
            split at h
            · rename_i h4
              cases h; exact .inr (.inr ⟨by rw [h2, h3, h4], rfl⟩)
            · cases h
          · cases h
        · cases h

@[simp] theorem decode_init (nn : Byte) (key : List Byte) : decode (0x01 :: nn :: key) = .ok (.init nn key) := rfl

@[simp] theorem decode_update (data : List Byte) : decode (0x02 :: 0x00 :: data) = .ok (.update data) := rfl

@[simp] theorem decode_final : decode [0x03, 0x00] = .ok .final := rfl

/-! ### INIT -/

/-- The operand checks of `INIT` (R85). -/
theorem initOperandsLegal_iff (nn : Byte) (key : List Byte) :
    initOperandsLegal nn key = true ↔ 1 ≤ nn.toNat ∧ nn.toNat ≤ 64 ∧ key.length ≤ 64 := by
  simp only [initOperandsLegal, digestLength, keyLength, Bool.and_eq_true, Bool.not_eq_true', Bool.or_eq_false_iff, decide_eq_false_iff_not]
  omega

/-- `P0` as the sum of R86. -/
theorem paramWord_eq (nn kk : Byte) :
    paramWord nn kk = BitVec.ofNat 64 (nn.toNat + 256 * kk.toNat + 0x0000000001010000) := by
  apply BitVec.eq_of_toNat_eq
  have hl : ((paramBlock nn kk).take 8) = [nn, kk, 1, 1, 0, 0, 0, 0] := rfl
  have := nn.isLt
  have := kk.isLt
  have h1 : (1 : Byte).toNat = 1 := rfl
  have h0 : (0 : Byte).toNat = 0 := rfl
  rw [paramWord, hl, load64_toNat _ rfl, BitVec.toNat_ofNat]
  simp only [leNat, h1, h0]
  omega

theorem initialChain_first (nn kk : Byte) : (initialChain nn kk)[0] = xor64 iv[0] (paramWord nn kk) := rfl

theorem initialChain_rest (nn kk : Byte) (i : Fin 8) (h : i ≠ 0) : (initialChain nn kk)[i] = iv[i] := by
  have h0 : ¬0 = i.val := fun hi => h (Fin.ext hi.symm)
  simp only [initialChain, Fin.getElem_fin]
  exact Vector.getElem_set_ne (xs := iv) (hi := by omega) i.isLt h0

theorem keyBlock_length (key : List Byte) (h : key.length ≤ 64) : (keyBlock key).length = 128 := by
  simp [keyBlock, keyLength, zeros]; omega

theorem keyBlock_getElem? (key : List Byte) (h : key.length ≤ 64) (k : Nat) :
    (keyBlock key)[k]? = if k < key.length then key[k]? else if k < 128 then some 0 else none := by
  simp only [keyBlock, keyLength, List.getElem?_append, zeros_getElem?]
  split
  · rfl
  · by_cases h2 : k < 128
    · rw [if_pos (by omega), if_pos h2]
    · rw [if_neg (by omega), if_neg h2]

/-- A rejected `INIT` raises and does nothing else (R85, R107). -/
theorem exec_init_rejected (s : State) (nn : Byte) (key : List Byte) (h : initOperandsLegal nn key = false) :
    exec (.init nn key) s = .next (takeException s .invalidParameter) := by
  simp [exec, execInit, initCommand, h, finish]

/-- An accepted `INIT` without a key (R86, R88). -/
theorem exec_init_unkeyed (s : State) (nn : Byte) (h : initOperandsLegal nn [] = true) :
    exec (.init nn []) s = .next (respond (s.loadContext nn 0) .ok []) := by
  simp [exec, execInit, initCommand, h, absorbKey, finish]

/-- The state after an accepted `INIT` with a key, before the answer (R87). -/
def afterKey (s : State) (nn : Byte) (key : List Byte) : State :=
  ((s.loadContext nn (BitVec.ofNat 8 key.length)).setBuf (Memory.writeBytes s.buf 0 (keyBlock key))).setBuflen 128

@[simp] theorem afterKey_h (s : State) (nn : Byte) (key : List Byte) : (afterKey s nn key).h =
    initialChain nn (BitVec.ofNat 8 key.length) := rfl
@[simp] theorem afterKey_t (s : State) (nn : Byte) (key : List Byte) : (afterKey s nn key).t = #v[0, 0] := rfl
@[simp] theorem afterKey_f (s : State) (nn : Byte) (key : List Byte) : (afterKey s nn key).f = clearedFlags := rfl
@[simp] theorem afterKey_buf (s : State) (nn : Byte) (key : List Byte) : (afterKey s nn key).buf =
    Memory.writeBytes s.buf 0 (keyBlock key) := rfl
@[simp] theorem afterKey_buflen (s : State) (nn : Byte) (key : List Byte) : (afterKey s nn key).buflen = 128 := rfl
@[simp] theorem afterKey_nn (s : State) (nn : Byte) (key : List Byte) : (afterKey s nn key).nn = nn := rfl
@[simp] theorem afterKey_kk (s : State) (nn : Byte) (key : List Byte) : (afterKey s nn key).kk = BitVec.ofNat 8 key.length := rfl
@[simp] theorem afterKey_phase (s : State) (nn : Byte) (key : List Byte) : (afterKey s nn key).phase = .active := rfl
@[simp] theorem afterKey_v (s : State) (nn : Byte) (key : List Byte) : (afterKey s nn key).v = s.v := rfl
@[simp] theorem afterKey_commands (s : State) (nn : Byte) (key : List Byte) : (afterKey s nn key).commands = s.commands := rfl
@[simp] theorem afterKey_responses (s : State) (nn : Byte) (key : List Byte) : (afterKey s nn key).responses = s.responses := rfl
@[simp] theorem afterKey_ci (s : State) (nn : Byte) (key : List Byte) : (afterKey s nn key).ci = s.ci := rfl
@[simp] theorem afterKey_resets (s : State) (nn : Byte) (key : List Byte) : (afterKey s nn key).resets = s.resets := rfl

/-- The key block is buffered and not compressed (R87). -/
theorem absorb_keyBlock (s : State) (nn : Byte) (key : List Byte) (hk : key.length ≤ 64) :
    absorb (keyBlock key) (s.loadContext nn (BitVec.ofNat 8 key.length)) = .ok (afterKey s nn key) := by
  have hl := keyBlock_length key hk
  have hz : (s.loadContext nn (BitVec.ofNat 8 key.length)).buflen.val = 0 := rfl
  rw [absorb_eq_foldlM, foldlM_absorbByte_fits _ _ (by rw [hz, hl]), bufferRest_ok _ _ (by rw [hz, hl]), hl, hz]
  rfl

/-- An accepted `INIT` with a key (R86, R87, R88). -/
theorem exec_init_keyed (s : State) (nn : Byte) (key : List Byte) (h : initOperandsLegal nn key = true)
    (hk : key ≠ []) : exec (.init nn key) s = .next (respond (afterKey s nn key) .ok []) := by
  have hl := (initOperandsLegal_iff nn key).1 h
  have hpos : 0 < key.length := List.length_pos_of_ne_nil hk
  simp only [exec, execInit, initCommand, h, if_true, absorbKey, if_pos hpos, absorb_keyBlock s nn key hl.2.2, finish]

/-! ### UPDATE -/

/-- `UPDATE` without a context raises and does nothing else (R91, R108). -/
theorem exec_update_rejected (s : State) (data : List Byte) (h : s.phase ≠ .active) :
    exec (.update data) s = .next (takeException s .protocolViolation) := by
  simp [exec, execUpdate, updateCommand, h, finish]

/-- `UPDATE` with a context answers what `ABSORB` leaves (R91). -/
theorem exec_update_active (s : State) (data : List Byte) (h : s.phase = .active) :
    exec (.update data) s = finish ((absorb data s).map fun s1 => respond s1 .ok []) := by
  simp only [exec, execUpdate, updateCommand, if_pos h]
  cases absorb data s <;> rfl

theorem exec_update_absorbed (s s1 : State) (data : List Byte) (hp : s.phase = .active)
    (h : absorb data s = .ok s1) : exec (.update data) s = .next (respond s1 .ok []) := by
  rw [exec_update_active s data hp, h]; rfl

/-! ### FINAL -/

/-- `FINAL` without a context raises and does nothing else (R98, R108). -/
theorem exec_final_rejected (s : State) (h : s.phase ≠ .active) :
    exec .final s = .next (takeException s .protocolViolation) := by
  simp [exec, execFinal, finalCommand, h, finish]

/-- The state after the last compression of a buffer whose padded bytes are `block` (R99). -/
def afterLast (s : State) (block : List Byte) : State :=
  (((s.incT s.buflen.val).markLast).setBuf
    (Memory.writeBytes s.buf s.buflen.val (zeros (128 - s.buflen.val)))).setChain
    (compressBlock s.h (incCounter s.t s.buflen.val) (markLastBlock s.f) block)
    (finalV s.h (incCounter s.t s.buflen.val) (markLastBlock s.f) block)

@[simp] theorem afterLast_h (s : State) (block : List Byte) : (afterLast s block).h =
    compressBlock s.h (incCounter s.t s.buflen.val) (markLastBlock s.f) block := rfl
@[simp] theorem afterLast_t (s : State) (block : List Byte) : (afterLast s block).t = incCounter s.t s.buflen.val := rfl
@[simp] theorem afterLast_f (s : State) (block : List Byte) : (afterLast s block).f = markLastBlock s.f := rfl
@[simp] theorem afterLast_buf (s : State) (block : List Byte) : (afterLast s block).buf =
    Memory.writeBytes s.buf s.buflen.val (zeros (128 - s.buflen.val)) := rfl
@[simp] theorem afterLast_buflen (s : State) (block : List Byte) : (afterLast s block).buflen = s.buflen := rfl
@[simp] theorem afterLast_nn (s : State) (block : List Byte) : (afterLast s block).nn = s.nn := rfl
@[simp] theorem afterLast_kk (s : State) (block : List Byte) : (afterLast s block).kk = s.kk := rfl
@[simp] theorem afterLast_phase (s : State) (block : List Byte) : (afterLast s block).phase = s.phase := rfl
@[simp] theorem afterLast_v (s : State) (block : List Byte) : (afterLast s block).v =
    finalV s.h (incCounter s.t s.buflen.val) (markLastBlock s.f) block := rfl
@[simp] theorem afterLast_commands (s : State) (block : List Byte) : (afterLast s block).commands = s.commands := rfl
@[simp] theorem afterLast_responses (s : State) (block : List Byte) : (afterLast s block).responses = s.responses := rfl
@[simp] theorem afterLast_ci (s : State) (block : List Byte) : (afterLast s block).ci = s.ci := rfl
@[simp] theorem afterLast_resets (s : State) (block : List Byte) : (afterLast s block).resets = s.resets := rfl

/-- Padding leaves the valid bytes and then zeros (R99). -/
theorem readBytes_padded (s : State) (old : List Byte) (h : memRead s 0 s.buflen.val = .ok old) :
    Memory.readBytes (Memory.writeBytes s.buf s.buflen.val (zeros (128 - s.buflen.val))) 0 128 =
      some (old ++ zeros (128 - s.buflen.val)) := by
  rw [memRead_ok_iff] at h
  obtain ⟨hr, hl, hb⟩ := h
  rw [Memory.readBytes_eq_some]
  refine ⟨by simp [hl, zeros]; omega, fun i hi => ?_⟩
  rw [Memory.read_writeBytes, zeros_length, Nat.zero_add, List.getElem?_append, hl]
  by_cases hib : i < s.buflen.val
  · rw [if_neg (by omega), if_pos hib]
    have := hb i hib
    rwa [Nat.zero_add] at this
  · rw [if_pos (by omega), if_neg hib]

/-- The last compression where the valid bytes can be read (R99). -/
theorem compressLast_of_read (s : State) (old : List Byte) (h : memRead s 0 s.buflen.val = .ok old) :
    compressLast s = .ok (afterLast s (old ++ zeros (128 - s.buflen.val))) := by
  simp only [compressLast]
  rw [memWrite_ok _ _ _ (by simp [zeros]; omega)]
  exact compress_of_read _ _ (by simp [memRead, readBytes_padded s old h])

/-- `FINAL` where the valid bytes can be read (R98 to R100). -/
theorem exec_final_active (s : State) (old : List Byte) (hp : s.phase = .active)
    (h : memRead s 0 s.buflen.val = .ok old) :
    exec .final s = .next (respond ((afterLast s (old ++ zeros (128 - s.buflen.val))).setPhase .done) .ok
      (digest s.nn (afterLast s (old ++ zeros (128 - s.buflen.val))).h)) := by
  simp only [exec, execFinal, finalCommand, if_pos hp, compressLast_of_read s old h, finish]
  rfl

/-- When `FINAL` runs, the valid bytes can be read. -/
theorem compressLast_ok (s s' : State) (h : compressLast s = .ok s') :
    ∃ old, memRead s 0 s.buflen.val = .ok old := by
  simp only [compressLast] at h
  rw [memWrite_ok _ _ _ (by simp [zeros]; omega)] at h
  obtain ⟨block, hb, -⟩ := compress_ok _ _ h
  rw [memRead_ok_iff] at hb
  refine memRead_written s 0 _ (by omega) (fun i hi => ?_)
  have h1 := hb.2.2 i (by omega)
  simp only [setBuf_buf, markLast_buf, incT_buf, Memory.read_writeBytes] at h1
  rw [if_neg (by omega)] at h1
  rw [h1, List.getElem?_eq_getElem (by omega)]
  rfl

/-- The valid bytes of a state that holds them all can be read. -/
theorem memRead_valid (s : State) (h : s.validWritten) : ∃ old, memRead s 0 s.buflen.val = .ok old :=
  memRead_written s 0 _ (by omega) (fun i hi => by rw [Nat.zero_add]; exact h i hi)

theorem validWritten_of_read (s : State) (old : List Byte) (h : memRead s 0 s.buflen.val = .ok old) :
    s.validWritten := by
  rw [memRead_ok_iff] at h
  intro a ha
  have := h.2.2 a ha
  rw [Nat.zero_add] at this
  rw [this, List.getElem?_eq_getElem (by omega)]
  rfl

/-! ### Everything a command can do -/

theorem finish_eq_next (r : Except Fault State) (t : State) : finish r = .next t ↔ r = .ok t := by
  cases r <;> simp [finish]

/-- The three ways `INIT` answers: rejected, without a key, with a key (R85 to R88). -/
theorem exec_init_cases (s t : State) (nn : Byte) (key : List Byte) (h : exec (.init nn key) s = .next t) :
    (initOperandsLegal nn key = false ∧ t = takeException s .invalidParameter) ∨
    (initOperandsLegal nn key = true ∧ key = [] ∧ t = respond (s.loadContext nn 0) .ok []) ∨
    (initOperandsLegal nn key = true ∧ key ≠ [] ∧ t = respond (afterKey s nn key) .ok []) := by
  cases hl : initOperandsLegal nn key with
  | false => rw [exec_init_rejected s nn key hl] at h; cases h; exact .inl ⟨rfl, rfl⟩
  | true =>
    by_cases hk : key = []
    · subst hk; rw [exec_init_unkeyed s nn hl] at h; cases h; exact .inr (.inl ⟨rfl, rfl, rfl⟩)
    · rw [exec_init_keyed s nn key hl hk] at h; cases h; exact .inr (.inr ⟨rfl, hk, rfl⟩)

/-- The two ways `UPDATE` answers (R91, R108). -/
theorem exec_update_cases (s t : State) (data : List Byte) (h : exec (.update data) s = .next t) :
    (s.phase ≠ .active ∧ t = takeException s .protocolViolation) ∨
    (s.phase = .active ∧ ∃ s1, absorb data s = .ok s1 ∧ t = respond s1 .ok []) := by
  by_cases hp : s.phase = .active
  · rw [exec_update_active s data hp, finish_eq_next] at h
    cases ha : absorb data s with
    | error e => rw [ha] at h; cases h
    | ok s1 => rw [ha] at h; exact .inr ⟨hp, s1, rfl, (Except.ok.inj h).symm⟩
  · rw [exec_update_rejected s data hp] at h; cases h; exact .inl ⟨hp, rfl⟩

/-- The two ways `FINAL` answers (R98 to R100, R108). -/
theorem exec_final_cases (s t : State) (h : exec .final s = .next t) :
    (s.phase ≠ .active ∧ t = takeException s .protocolViolation) ∨
    (s.phase = .active ∧ ∃ old, memRead s 0 s.buflen.val = .ok old ∧
      t = respond ((afterLast s (old ++ zeros (128 - s.buflen.val))).setPhase .done) .ok
        (digest s.nn (afterLast s (old ++ zeros (128 - s.buflen.val))).h)) := by
  by_cases hp : s.phase = .active
  · have hcmd : finalCommand s = .ok t := (finish_eq_next _ _).1 h
    rw [finalCommand, if_pos hp] at hcmd
    cases hc : compressLast s with
    | error e => rw [hc] at hcmd; cases hcmd
    | ok s1 =>
      obtain ⟨old, ho⟩ := compressLast_ok s s1 hc
      rw [exec_final_active s old hp ho] at h
      exact .inr ⟨hp, old, ho, (Host.Outcome.next.inj h).symm⟩
  · rw [exec_final_rejected s hp] at h; cases h; exact .inl ⟨hp, rfl⟩

/-! ### HASH -/

theorem lastOk_respond (s : State) (result : List Byte) : lastOk (respond s .ok result) = true := by
  simp [lastOk, respond, responseOk]

theorem lastOk_takeException (s : State) (e : Exception) : lastOk (takeException s e) = false := by
  cases e <;> simp [lastOk, takeException, respond, responseOk] <;> decide

theorem thenIfOk_ok (s : State) (f : State → Except Fault State) (h : lastOk s = true) : thenIfOk (.ok s) f = f s := by
  simp [thenIfOk, h]

theorem thenIfOk_not (s : State) (f : State → Except Fault State) (h : lastOk s = false) :
    thenIfOk (.ok s) f = .ok s := by
  simp [thenIfOk, h]

/-- `HASH` with a length in range: what `FINAL` answers after `INIT` and `UPDATE` (R102). -/
theorem exec_hash_legal (s s1 : State) (nn : Byte) (data : List Byte) (hl : initOperandsLegal nn [] = true)
    (h : absorb data (respond (s.loadContext nn 0) .ok []) = .ok s1) :
    exec (.hash nn data) s = exec .final (respond s1 .ok []) := by
  have hi : initCommand nn [] s = _ := (finish_eq_next _ _).1 (exec_init_unkeyed s nn hl)
  have hu : updateCommand data _ = _ := (finish_eq_next _ _).1 (exec_update_absorbed _ s1 data rfl h)
  show finish (hashCommand nn data s) = finish (finalCommand _)
  rw [hashCommand, hi, thenIfOk_ok _ _ (lastOk_respond _ _), hu, thenIfOk_ok _ _ (lastOk_respond _ _)]

/-- `HASH` with a length out of range: its `INIT` is rejected and nothing follows (R57). -/
theorem exec_hash_rejected (s : State) (nn : Byte) (data : List Byte) (hl : initOperandsLegal nn [] = false) :
    exec (.hash nn data) s = .next (takeException s .invalidParameter) := by
  have hi : initCommand nn [] s = _ := (finish_eq_next _ _).1 (exec_init_rejected s nn [] hl)
  show finish (hashCommand nn data s) = _
  rw [hashCommand, hi, thenIfOk_not _ _ (lastOk_takeException _ _), thenIfOk_not _ _ (lastOk_takeException _ _)]
  rfl

/-- The two ways `HASH` answers: as its `INIT` where that is rejected, else as the three commands in a row (R57, R102). -/
theorem exec_hash_cases (s t : State) (nn : Byte) (data : List Byte) (h : exec (.hash nn data) s = .next t) :
    (initOperandsLegal nn [] = false ∧ t = takeException s .invalidParameter) ∨
    (initOperandsLegal nn [] = true ∧ ∃ s1, absorb data (respond (s.loadContext nn 0) .ok []) = .ok s1 ∧
      exec .final (respond s1 .ok []) = .next t) := by
  cases hl : initOperandsLegal nn [] with
  | false => rw [exec_hash_rejected s nn data hl] at h; cases h; exact .inl ⟨rfl, rfl⟩
  | true =>
    obtain ⟨s1, h1, -⟩ := absorb_total data (respond (s.loadContext nn 0) .ok [])
      (fun a ha => absurd ha (Nat.not_lt_zero a))
    rw [exec_hash_legal s s1 nn data hl h1] at h
    exact .inr ⟨rfl, s1, h1, h⟩

end Sys2Proof.Machine
end

