-- ==== Sys2Proof/Laws/ClosedForm.lean ====
section
/-! SUPPORT. The closed form of 44_update.md R95: the state that an input leaves, kept byte by byte. -/

namespace Sys2Proof.Machine

/-- The state `s` is what absorbing leaves of a state `s0` when the valid bytes of `s0` and the bytes absorbed since are
`input`. -/
def Absorbed (s0 : State) (input : List Byte) (s : State) : Prop :=
  s.h = chainFrom s0.h (counterValue s0.t) s0.f input (blocksBefore input.length) ∧
  counterValue s.t = (counterValue s0.t + 128 * blocksBefore input.length) % 2 ^ 128 ∧
  s.f = s0.f ∧
  s.buflen.val + 128 * blocksBefore input.length = input.length ∧
  ∀ a, Memory.read s.buf a =
    if a < input.length - 128 * blocksBefore input.length then input[128 * blocksBefore input.length + a]?
    else if blocksBefore input.length = 0 ∨ 128 ≤ a then Memory.read s0.buf a
    else input[128 * (blocksBefore input.length - 1) + a]?

/-- The closed form looks at no other register. -/
theorem Absorbed.congr (s0 s u : State) (input : List Byte) (ha : Absorbed s0 input s) (hh : s.h = u.h) (ht : s.t = u.t)
    (hf : s.f = u.f) (hb : s.buf = u.buf) (hl : s.buflen = u.buflen) : Absorbed s0 input u := by
  unfold Absorbed at *
  rw [← hh, ← ht, ← hf, ← hb, ← hl]
  exact ha

/-- Blocks that lie within an input do not change when the input grows. -/
theorem chainFrom_append (h : Vector Word 8) (start : Nat) (f : Vector Word 2) (input more : List Byte) (c : Nat)
    (hc : 128 * c ≤ input.length) : chainFrom h start f (input ++ more) c = chainFrom h start f input c := by
  induction c with
  | zero => rfl
  | succ c ih =>
    have hblock : blockAt (input ++ more) c = blockAt input c := by
      simp only [blockAt]
      rw [List.drop_append_of_le_length (by omega), List.take_append_of_le_length (by rw [List.length_drop]; omega)]
    simp only [chainFrom, hblock, ih (by omega)]

/-- Nothing absorbed yet: the input is the valid bytes. -/
theorem absorbed_start (s : State) (old : List Byte) (h : memRead s 0 s.buflen.val = .ok old) : Absorbed s old s := by
  rw [memRead_ok_iff] at h
  obtain ⟨hr, hl, hb⟩ := h
  have hc : blocksBefore old.length = 0 := by rw [blocksBefore, hl]; omega
  have hlt := counterValue_lt s.t
  refine ⟨by rw [hc]; rfl, by rw [hc]; omega, rfl, by rw [hc]; omega, fun a => ?_⟩
  rw [hc]
  simp only [Nat.mul_zero, Nat.sub_zero, Nat.zero_add, true_or, if_true]
  split
  · have := hb a (by omega)
    rwa [Nat.zero_add] at this
  · rfl

/-- The valid bytes of an absorbed state are the end of the input. -/
theorem absorbed_read (s0 s : State) (input : List Byte) (h : Absorbed s0 input s) :
    memRead s 0 s.buflen.val = .ok (input.drop (128 * blocksBefore input.length)) := by
  obtain ⟨-, -, -, hl, hb⟩ := h
  rw [memRead_ok_iff]
  refine ⟨by omega, by rw [List.length_drop]; omega, fun i hi => ?_⟩
  rw [Nat.zero_add, hb i, if_pos (by omega), List.getElem?_drop]

/-- One more byte keeps the closed form (R90, R95). -/
theorem absorbed_byte (s0 s : State) (input : List Byte) (b : Byte) (h : Absorbed s0 input s) :
    ∃ s', absorbByte s b = .ok s' ∧ Absorbed s0 (input ++ [b]) s' := by
  have hread := absorbed_read s0 s input h
  obtain ⟨s', hs'⟩ := absorbByte_total s b (validWritten_of_read s _ hread)
  refine ⟨s', hs', ?_⟩
  obtain ⟨hh, ht, hf, hl, hb⟩ := h
  have hle : s.buflen.val ≤ 128 := by omega
  have hlen : (input ++ [b]).length = input.length + 1 := by simp
  obtain ⟨hlt, rfl⟩ | ⟨hfull, block, hblock, rfl⟩ := absorbByte_ok s s' b hs'
  · have hc : blocksBefore (input ++ [b]).length = blocksBefore input.length := by
      rw [hlen]; simp only [blocksBefore] at hl ⊢; omega
    have hval : ((s.setBuf (Memory.writeBytes s.buf s.buflen.val [b])).setBuflen (s.buflen.val + 1)).buflen.val
        = s.buflen.val + 1 := setBuflen_val _ _ (by omega)
    unfold Absorbed
    rw [hc, hlen, hval]
    refine ⟨?_, by simpa using ht, by simpa using hf, by omega, fun a => ?_⟩
    · rw [chainFrom_append _ _ _ _ _ _ (by omega)]; simpa using hh
    · simp only [setBuflen_buf, setBuf_buf, Memory.read_writeBytes, List.length_cons, List.length_nil, hb a]
      by_cases h1 : a = s.buflen.val
      · rw [if_pos (show s.buflen.val ≤ a ∧ a < s.buflen.val + (0 + 1) by omega),
          if_pos (show a < input.length + 1 - 128 * blocksBefore input.length by omega),
          List.getElem?_append_right (by omega)]
        rw [show a - s.buflen.val = 0 by omega, show 128 * blocksBefore input.length + a - input.length = 0 by omega]
      · rw [if_neg (show ¬(s.buflen.val ≤ a ∧ a < s.buflen.val + (0 + 1)) by omega)]
        by_cases h2 : a < input.length - 128 * blocksBefore input.length
        · rw [if_pos h2, if_pos (show a < input.length + 1 - 128 * blocksBefore input.length by omega),
            List.getElem?_append_left (by omega)]
        · rw [if_neg h2, if_neg (show ¬a < input.length + 1 - 128 * blocksBefore input.length by omega)]
          by_cases h3 : blocksBefore input.length = 0 ∨ 128 ≤ a
          · rw [if_pos h3, if_pos h3]
          · rw [if_neg h3, if_neg h3, List.getElem?_append_left (by omega)]
  · have hc : blocksBefore (input ++ [b]).length = blocksBefore input.length + 1 := by
      rw [hlen]; simp only [blocksBefore] at hl ⊢; omega
    have hat : block = blockAt input (blocksBefore input.length) := by
      have h1 : memRead s 0 s.buflen.val = .ok block := by
        rw [hfull]; simp [memRead, hblock]
      rw [hread] at h1
      have h2 := Except.ok.inj h1
      rw [← h2, blockAt, List.take_of_length_le]
      rw [List.length_drop]; omega
    have hcount : counterValue (incCounter s.t 128) =
        (counterValue s0.t + 128 * (blocksBefore input.length + 1)) % 2 ^ 128 := by
      rw [counterValue_incCounter _ _ (by omega), ht]; omega
    have hwords := eq_counterWords _ _ hcount
    unfold Absorbed
    rw [hc, hlen]
    refine ⟨?_, by simpa [afterBlock] using hcount, by simpa [afterBlock] using hf, ?_, fun a => ?_⟩
    · simp only [afterBlock, setBuflen_h, setBuf_h, setChain_h, chainFrom]
      rw [chainFrom_append _ _ _ _ _ _ (by omega), ← hh, hwords, hf, hat]
      congr 1
      simp only [blockAt]
      rw [List.drop_append_of_le_length (by omega), List.take_append_of_le_length (by rw [List.length_drop]; omega)]
    · have : (((afterBlock [] block s).setBuf (Memory.writeBytes s.buf 0 [b])).setBuflen 1).buflen.val = 1 := rfl
      rw [this]; omega
    · simp only [setBuflen_buf, setBuf_buf, Memory.read_writeBytes, List.length_cons, List.length_nil, hb a]
      by_cases h1 : a = 0
      · subst h1
        rw [if_pos (show 0 ≤ 0 ∧ 0 < 0 + (0 + 1) by omega),
          if_pos (show 0 < input.length + 1 - 128 * (blocksBefore input.length + 1) by omega),
          List.getElem?_append_right (by omega)]
        rw [show 128 * (blocksBefore input.length + 1) + 0 - input.length = 0 by omega]
      · rw [if_neg (show ¬(0 ≤ a ∧ a < 0 + (0 + 1)) by omega),
          if_neg (show ¬a < input.length + 1 - 128 * (blocksBefore input.length + 1) by omega)]
        by_cases h2 : 128 ≤ a
        · rw [if_neg (show ¬a < input.length - 128 * blocksBefore input.length by omega), if_pos (Or.inr h2),
            if_pos (Or.inr h2)]
        · rw [if_pos (show a < input.length - 128 * blocksBefore input.length by omega),
            if_neg (show ¬(blocksBefore input.length + 1 = 0 ∨ 128 ≤ a) by omega), Nat.add_sub_cancel,
            List.getElem?_append_left (by omega)]

/-- Any bytes keep the closed form (R94, R95). -/
theorem absorbed_bytes (s0 s : State) (input data : List Byte) (h : Absorbed s0 input s) :
    ∃ s', absorb data s = .ok s' ∧ Absorbed s0 (input ++ data) s' := by
  rw [absorb_eq_foldlM]
  induction data generalizing s input with
  | nil => exact ⟨s, rfl, by simpa using h⟩
  | cons b bs ih =>
    obtain ⟨s1, h1, a1⟩ := absorbed_byte s0 s input b h
    obtain ⟨s', h', a'⟩ := ih s1 (input ++ [b]) a1
    exact ⟨s', by rw [List.foldlM_cons, h1, ok_bind, h'], by simpa using a'⟩

/-- `FINAL` on an absorbed input answers the digest of it (R99, R100, R103): the context the absorption began from has a zero
counter and clear flags. -/
theorem exec_final_absorbed (s0 s : State) (input : List Byte) (h : Absorbed s0 input s) (hp : s.phase = .active)
    (ht : counterValue s0.t = 0) (hf : s0.f = clearedFlags) :
    exec .final s = .next (respond ((afterLast s (input.drop (128 * blocksBefore input.length) ++
      zeros (128 - s.buflen.val))).setPhase .done) .ok (digestFrom s0.h s.nn input)) := by
  have hread := absorbed_read s0 s input h
  obtain ⟨hh, hc, hff, hl, -⟩ := h
  have hcount : incCounter s.t s.buflen.val = counterWords input.length := by
    apply eq_counterWords
    rw [counterValue_incCounter _ _ (by omega), hc, ht]; omega
  have hd : (input.drop (128 * blocksBefore input.length)).length = s.buflen.val := by
    rw [List.length_drop]; omega
  rw [exec_final_active s _ hp hread]
  simp only [afterLast, setChain_h, digestFrom, hcount, hh, hff, hf, ht, hd]

end Sys2Proof.Machine
end

