-- ==== Sys2Proof/Laws/Mixer.lean ====
section
/-! SUPPORT. What one application of `G` does, said once: it writes its four words, in closed form, and no other (R70). -/

namespace Sys2Proof.Machine

theorem set_getElem_same (v : Vector Word 16) (i : Fin 16) (w : Word) : (v.set i w)[i] = w := by simp

theorem set_getElem_other (v : Vector Word 16) (i j : Fin 16) (w : Word) (h : i ≠ j) : (v.set i w)[j] = v[j] := by
  have := Fin.val_ne_of_ne h
  simp [this]

theorem words16_ext (v u : Vector Word 16) (h : ∀ j : Fin 16, v[j] = u[j]) : v = u := by
  apply Vector.ext
  intro i hi
  exact h ⟨i, hi⟩

theorem blockWords_getElem (block : List Byte) (i : Fin 16) : (blockWords block)[i] = blockWord block i.val := by
  fin_cases i <;> rfl

theorem feedForward_getElem (h : Vector Word 8) (v : Vector Word 16) (i : Fin 8) :
    (feedForward h v)[i] = xor64 h[i] (xor64 v[i.val] v[i.val + 8]) := by
  fin_cases i <;> rfl

/-- The four words of a working vector that an application reads and writes. -/
def four (v : Vector Word 16) (a b c d : Fin 16) : Word × Word × Word × Word := (v[a], v[b], v[c], v[d])

/-- The new values of the four words, from their old values (R70). -/
def mixFour (w : Word × Word × Word × Word) (x y : Word) : Word × Word × Word × Word :=
  let a1 := add64 (add64 w.1 w.2.1) x
  let d1 := rotr64 (xor64 w.2.2.2 a1) 32
  let c1 := add64 w.2.2.1 d1
  let b1 := rotr64 (xor64 w.2.1 c1) 24
  let a2 := add64 (add64 a1 b1) y
  let d2 := rotr64 (xor64 d1 a2) 16
  let c2 := add64 c1 d2
  (a2, rotr64 (xor64 b1 c2) 63, c2, d2)

/-- One word written, and the words left alone. -/
theorem set_getElem (v u : Vector Word 16) (i : Fin 16) (w : Word) (h : u = v.set i w) (j : Fin 16) :
    u[j] = if i = j then w else v[j] := by
  subst h
  split
  · rename_i hij; subst hij; exact set_getElem_same v i w
  · rename_i hij; exact set_getElem_other v i j w hij

/-- What `G` leaves, whatever the four different indices: the closed form on its words, every other word as it was. -/
theorem mixG_four (v : Vector Word 16) (a b c d : Fin 16) (x y : Word) (hn : [a, b, c, d].Nodup) :
    four (mixG v a b c d x y) a b c d = mixFour (four v a b c d) x y ∧
    ∀ j : Fin 16, j ∉ [a, b, c, d] → (mixG v a b c d x y)[j] = v[j] := by
  simp only [List.nodup_cons, List.mem_cons, List.not_mem_nil, or_false, not_or, not_false_eq_true,
    List.nodup_nil, and_true] at hn
  obtain ⟨⟨hab, hac, had⟩, ⟨hbc, hbd⟩, hcd⟩ := hn
  generalize hres : mixG v a b c d x y = res
  unfold mixG at hres
  extract_lets v1 v2 v3 v4 v5 v6 v7 at hres
  have s1 := set_getElem v v1 a _ rfl
  have s2 := set_getElem v1 v2 d _ rfl
  have s3 := set_getElem v2 v3 c _ rfl
  have s4 := set_getElem v3 v4 b _ rfl
  have s5 := set_getElem v4 v5 a _ rfl
  have s6 := set_getElem v5 v6 d _ rfl
  have s7 := set_getElem v6 v7 c _ rfl
  have s8 := set_getElem v7 res b _ hres.symm
  clear_value v1 v2 v3 v4 v5 v6 v7
  have r0 : rotations[0] = 32 := rfl
  have r1 : rotations[1] = 24 := rfl
  have r2 : rotations[2] = 16 := rfl
  have r3 : rotations[3] = 63 := rfl
  rw [r0] at s2; rw [r1] at s4; rw [r2] at s6; rw [r3] at s8
  have hba : ¬b = a := fun h => hab h.symm
  have hca : ¬c = a := fun h => hac h.symm
  have hda : ¬d = a := fun h => had h.symm
  have hcb : ¬c = b := fun h => hbc h.symm
  have hdb : ¬d = b := fun h => hbd h.symm
  have hdc : ¬d = c := fun h => hcd h.symm
  refine ⟨?_, fun j hj => ?_⟩
  · simp only [four, mixFour, s1, s2, s3, s4, s5, s6, s7, s8, hab, hac, had, hbc, hbd, hcd, hba, hca, hda, hcb, hdb, hdc,
      if_true, if_false]
  · simp only [List.mem_cons, List.not_mem_nil, or_false, not_or] at hj
    obtain ⟨ha, hb, hc, hd⟩ := hj
    simp only [s1, s2, s3, s4, s5, s6, s7, s8, Ne.symm ha, Ne.symm hb, Ne.symm hc, Ne.symm hd, if_false]

end Sys2Proof.Machine
end

