-- ==== Sys2Proof/Laws/PerInstr.lean ====
section
/-! SUPPORT. One statement for every instruction: the packets the host sends for it decode, in order, to the commands it
stands for (30_encoding.md R55, R57). -/

namespace Sys2Proof.Laws.Expands

/-- The packets of `i` decode to its expansion. -/
def Statement (i : Instr) : Prop := (packetsOf i).map decode = (expansion i).map .ok

theorem init (nn : Byte) (key : List Byte) : Statement (.init nn key) := by
  simp [Statement, packetsOf, expansion, encode, decode]

theorem update (data : List Byte) : Statement (.update data) := by
  simp [Statement, packetsOf, expansion, encode, decode]

theorem final : Statement .final := by
  simp [Statement, packetsOf, expansion, encode, decode]

theorem hash (nn : Byte) (data : List Byte) : Statement (.hash nn data) := by
  by_cases h : 1 ≤ nn.toNat ∧ nn.toNat ≤ 64
  · simp [Statement, packetsOf, expansion, if_pos h, encode, decode]
  · simp [Statement, packetsOf, expansion, if_neg h, encode, decode]

end Sys2Proof.Laws.Expands
end

