-- ==== Sys2Proof/Laws/Step.lean ====
section
/-! SUPPORT. Everything one step can do, said once: waiting, the reset, an illegal packet, a command. -/

namespace Sys2Proof.Machine

/-- The four ways a step answers a next state. -/
theorem step_cases (s t : State) (h : step s = .next t) :
    (s.commands = [] ∧ t = s) ∨
    (∃ cut rest, s.commands = .reset cut :: rest ∧
      t = (s.consume rest (HostEvent.reset cut).commandsTaken).takeReset) ∨
    (∃ p rest e, s.commands = .packet p :: rest ∧ decode p = .error e ∧
      t = takeException (s.consume rest 1) .illegalCommand) ∨
    (∃ p rest i, s.commands = .packet p :: rest ∧ decode p = .ok i ∧ exec i (s.consume rest 1) = .next t) := by
  cases hc : s.commands with
  | nil =>
    simp only [step, fetch, hc] at h
    cases h; exact .inl ⟨rfl, rfl⟩
  | cons ev rest =>
    cases ev with
    | reset cut =>
      simp only [step, fetch, hc] at h
      cases h; exact .inr (.inl ⟨cut, rest, rfl, rfl⟩)
    | packet p =>
      simp only [step, fetch, hc] at h
      cases hd : decode p with
      | error e =>
        rw [hd] at h; cases h
        exact .inr (.inr (.inl ⟨p, rest, e, rfl, hd, rfl⟩))
      | ok i =>
        rw [hd] at h
        exact .inr (.inr (.inr ⟨p, rest, i, rfl, hd, h⟩))

/-- One more step of a run. -/
theorem run_next (k : Nat) (s t : State) (h : step s = .next t) :
    Host.Core.run Sys2Proof.core (k + 1) s = Host.Core.run Sys2Proof.core k t := by
  have hs : Sys2Proof.core.step s = .next t := h
  simp only [Host.Core.run]
  rw [hs]

/-- A run of one step is that step. -/
theorem run_one (s : State) : Host.Core.run Sys2Proof.core 1 s = step s := by
  cases h : step s with
  | next t => exact run_next 0 s t h
  | fault r => simp only [Host.Core.run]; rw [show Sys2Proof.core.step s = .fault r from h]; rfl
  | refused r => simp only [Host.Core.run]; rw [show Sys2Proof.core.step s = .refused r from h]; rfl

end Sys2Proof.Machine
end

