-- ==== Sys2Proof/Tests/Slice0.lean ====
section
/-! SUPPORT. The model's own tests. Expected values are those that the spec writes out: 95_test_vectors.md (the table is named at each
test), the worked examples of the rules, and spec/opcode_table.json. The witnesses at the end show, for each obligation
with hypotheses, concrete values that meet them together. -/

namespace Sys2Proof.Tests.Slice0

open Sys2Proof Sys2Proof.Machine

/-! ### Helpers -/

/-- A context for an `nn`-byte digest whose valid bytes are `old`. -/
def holding (nn : Byte) (old : List Byte) : State :=
  { State.reset with
    h := initialChain nn 0, nn := nn, phase := .active,
    buf := Memory.writeBytes [] 0 old, buflen := Fin.ofNat 129 old.length }

/-- The same with other stale bytes, another `V` and another `KK`. -/
def hiddenOther (nn : Byte) (old : List Byte) : State :=
  { holding nn old with
    kk := 7, v := Vector.replicate 16 5, buf := Memory.writeBytes [(127, 9)] 0 old }

/-- An engine that has finished. -/
def finished : State := { holding 64 [0x61] with phase := .done, f := #v[ones64, 0] }

/-- The state a command leaves, or the reset state where it stops. -/
def after (o : Host.Outcome State Fault Refusal) : State :=
  match o with
  | .next s => s
  | .fault _ => State.reset
  | .refused _ => State.reset

theorem exists_next (o : Host.Outcome State Fault Refusal) (h : safeOutcome o = true) : ∃ t, o = .next t := by
  cases o with
  | next t => exact ⟨t, rfl⟩
  | fault _ => cases h
  | refused _ => cases h

theorem exists_ok {α : Type} (r : Except Fault α) (h : r.isOk = true) : ∃ t, r = .ok t := by
  cases r with
  | ok t => exact ⟨t, rfl⟩
  | error _ => cases h

/-- The valid bytes of such a context. -/
theorem read_holding (nn : Byte) (old : List Byte) (h : old.length ≤ 128) : memRead (holding nn old) 0 old.length = .ok old := by
  simp [memRead, holding, h, Memory.readBytes_writeBytes]

theorem holding_buflen (nn : Byte) (old : List Byte) (h : old.length ≤ 128) :
    (holding nn old).buflen.val = old.length :=
  Nat.mod_eq_of_lt (Nat.lt_succ_of_le h)

theorem read_valid (nn : Byte) (old : List Byte) (h : old.length ≤ 128) :
    memRead (holding nn old) 0 (holding nn old).buflen.val = .ok old := by
  rw [holding_buflen nn old h]
  exact read_holding nn old h

/-- A full buffer. -/
theorem read_full : memRead (holding 64 (zeros 128)) 0 128 = .ok (zeros 128) := by
  have h := read_holding 64 (zeros 128) (by simp)
  rwa [zeros_length] at h

theorem exec_final_holding (nn : Byte) : ∃ t, exec .final (holding nn [1]) = .next t :=
  ⟨_, exec_final_active _ [1] rfl (read_valid nn [1] (by decide))⟩

theorem step_final_holding : ∃ t, step { holding 64 [1] with commands := [.packet [0x03, 0x00]] } = .next t :=
  ⟨_, exec_final_active { holding 64 [1] with ci := 1 } [1] rfl (read_valid 64 [1] (by decide))⟩

/-! ### Well-formedness and decoding -/

/-- 30_encoding.md R57: the check refuses the pseudo-instruction, which has no packet, and the encoder gives it none. -/
theorem test_hash_has_no_packet :
    (Instr.hash 32 [0x61]).wellFormed = false ∧ encode (.hash 32 [0x61]) = none := by decide

/-- 30_encoding.md R47: the bytes `01 14` and then the key. -/
theorem test_decode_init : decode [0b00000001, 0b00010100, 0x6b, 0x65, 0x79] = .ok (.init 20 [0x6b, 0x65, 0x79]) := by
  decide

/-- 30_encoding.md R48: the bytes `02 00` and then the data. -/
theorem test_decode_update : decode [0b00000010, 0b00000000, 0xff] = .ok (.update [0xff]) := by decide

/-- 30_encoding.md R49: the bytes `03 00` and no more. -/
theorem test_decode_final : decode [0b00000011, 0b00000000] = .ok .final := by decide

/-- 30_encoding.md R57: `HASH` decodes from nothing; its packets decode to the three commands it stands for, and with a length
out of range only the `INIT` is sent. -/
theorem test_decode_hash : (packetsOf (.hash 32 [0x61])).map decode =
      [.ok (.init 32 []), .ok (.update [0x61]), .ok .final] ∧
    packetsOf (.hash 64 []) = [[0x01, 0x40], [0x02, 0x00], [0x03, 0x00]] ∧
    packetsOf (.hash 0 [0x61]) = [[0x01, 0x00]] ∧ packetsOf (.hash 65 [0x61]) = [[0x01, 0x41]] := by decide

/-- 30_encoding.md R51, the illegal rows, each by its name. -/
theorem test_decode_illegal :
    decode [0x02] = .error .tooShort ∧ decode [0x00, 0x00] = .error (.unknownOpcode 0) ∧
    decode [0x04, 0x00] = .error (.unknownOpcode 4) ∧ decode [0x02, 0x01] = .error (.reservedArgument 2 1) ∧
    decode [0x03, 0xff] = .error (.reservedArgument 3 0xff) ∧ decode [0x03, 0x00, 0xaa] = .error .unexpectedPayload := by
  decide

/-- spec/opcode_table.json: the table's `match` words, `INIT` with `nn = 64` in bits 15:8. -/
theorem test_table_words :
    decodeTableWord 16 0x4001 = some (.init 64 []) ∧ decodeTableWord 16 0x0002 = some (.update []) ∧
    decodeTableWord 16 0x0003 = some .final ∧ decodeTableWord 16 0x0103 = none := by decide

/-- A word placed where the next step takes it runs as the first command after reset (43_init.md R89: `INIT 64`). -/
theorem test_fetch_word :
    (after (step (State.reset.withFetchWord 16 0x4001))).responses = [[0x00]] ∧
    (after (step (State.reset.withFetchWord 16 0x4001))).h[0] = 0x6a09e667f2bdc948 := by decide +kernel

/-! ### Word arithmetic, table V-W -/

theorem test_add_xor :
    add64 0xffffffffffffffff 1 = 0 ∧ add64 0x6a09e667f2bdc948 0x510e527fade682d1 = 0xbb1838e7a0a44c19 ∧
    xor64 0x1f83d9abfb41bd6b ones64 = 0xe07c265404be4294 := by decide

theorem test_rotate :
    rotr64 0x0123456789abcdef 0 = 0x0123456789abcdef ∧ rotr64 0x0123456789abcdef 1 = 0x8091a2b3c4d5e6f7 ∧
    rotr64 0x0123456789abcdef 24 = 0xabcdef0123456789 ∧ rotr64 0x0123456789abcdef 63 = 0x02468acf13579bde ∧
    rotr64 0x0123456789abcdef 64 = 0x0123456789abcdef ∧ rotr64 0x8000000000000000 63 = 1 := by decide +kernel

theorem test_load_store :
    load64 [1, 2, 3, 4, 5, 6, 7, 8] = 0x0807060504030201 ∧
    store64 0x0d4d1c983fa580ba = [0xba, 0x80, 0xa5, 0x3f, 0x98, 0x1c, 0x4d, 0x0d] := by decide +kernel

theorem test_counter :
    incCounter #v[0xffffffffffffff80, 0] 128 = #v[0, 1] ∧ incCounter #v[0xffffffffffffffc0, 0] 65 = #v[1, 1] ∧
    incCounter #v[0xffffffffffffff80, 0xffffffffffffffff] 128 = #v[0, 0] ∧
    incCounter #v[0xffffffffffffff00, 7] 128 = #v[0xffffffffffffff80, 7] := by decide +kernel

/-! ### The mixer and the compression, tables V-G, V-C1 and V-C2 -/

/-- The third row of V-G: `y` enters at step 5 only. -/
theorem test_mixer_second_word :
    mixG (Vector.replicate 16 0) 0 1 2 3 0 1 =
      #v[1, 0x0002000000000000, 0x0001000000000000, 0x0001000000000000, 0, 0, 0, 0, 0, 0, 0, 0, 0, 0, 0, 0] := by
  decide +kernel

/-- 41_mixer_g.md R72, after step 8. -/
theorem test_mixer_worked_example :
    (let v := mixG (initialV (initialChain 64 0) #v[3, 0] #v[ones64, 0]) 0 4 8 12 0x0000000000636261 0
     (v[0], v[4], v[8], v[12])) =
    ((0xf0c9aa0f86491dea : Word), (0xb7defc3d0277e11f : Word), (0xee5e0f39647a9fff : Word),
      (0x7772fc2886a76c5f : Word)) := by decide +kernel

/-- V-C2: the non-final compression of `seq(0, 128)`. -/
theorem test_compress_nonfinal :
    compressBlock (initialChain 64 0) #v[0x80, 0] #v[0, 0] (seqBytes 0 128) =
      #v[0xffa0852a267eb85a, 0xee3e4a8743c6c30b, 0x28a559f71459300a, 0x61b0eeaf429e7346,
         0x2f194672bced790f, 0xbef760bb734a4a5d, 0x37410e514215c327, 0xe96b7e8825d0f5a7] := by decide +kernel

/-- V-C1: `V[0]` and `V[8]` after round 11 of the compression of "abc" (42_compression.md R80). -/
theorem test_compress_last_vector :
    (let v := finalV (initialChain 64 0) #v[3, 0] #v[ones64, 0] ([0x61, 0x62, 0x63] ++ zeros 125)
     (v[0], v[8])) = ((0x12ef8a641ec4f6d6 : Word), (0x75ab709bd3dcbf24 : Word)) := by decide +kernel

/-! ### The instructions -/

/-- V-I, fourth row: a keyed `INIT` while another context was active. -/
theorem test_init_keyed :
    (let s := after (exec (.init 20 [0x6b, 0x65, 0x79]) (holding 64 [1, 2]))
     (s.h[0], s.kk, s.buflen.val, s.buf.read 2, s.buf.read 3, s.t)) =
    ((0x6a09e667f2bdca1c : Word), (3 : Byte), 128, some (0x79 : Byte), some (0 : Byte), #v[(0 : Word), 0]) := by
  decide +kernel

/-- V-I, rejected rows: `nn = 65`, and a key of 65 bytes; the context stays. -/
theorem test_init_rejected :
    after (exec (.init 65 []) (holding 64 [1])) = { holding 64 [1] with responses := [[0x01]] } ∧
    after (exec (.init 32 (seqBytes 0 65)) (holding 64 [1])) = { holding 64 [1] with responses := [[0x01]] } := by
  decide +kernel

/-- V-U: `UPDATE seq(0, 129)`: one byte kept, stale bytes behind it, the counter at 128, the chain of V-C2. -/
theorem test_update_129 :
    (let s := after (exec (.update (seqBytes 0 129)) (holding 64 []))
     (s.buflen.val, s.buf.read 0, s.buf.read 1, s.t[0], s.h[0])) =
    (1, some (0x80 : Byte), some (0x01 : Byte), (0x80 : Word), (0xffa0852a267eb85a : Word)) := by decide +kernel

/-- 44_update.md R96: a full buffer is not compressed by an `UPDATE` of 128 bytes, nor by an empty one after it. -/
theorem test_update_exact_block :
    (after (exec (.update (seqBytes 0 128)) (holding 64 []))).t = #v[0, 0] ∧
    after (exec (.update []) (holding 64 (seqBytes 0 128))) =
      { holding 64 (seqBytes 0 128) with responses := [[0x00]] } := by decide +kernel

/-- 95_test_vectors.md X2: the digest of "abc", first eight bytes and the length of the answer; stale bytes are zeroed. -/
theorem test_final_abc :
    (let s := after (exec .final (holding 64 [0x61, 0x62, 0x63]))
     (s.responses.map fun r => (r.take 9, r.length), s.phase, s.buf.read 3, s.t)) =
    ([([0x00, 0xba, 0x80, 0xa5, 0x3f, 0x98, 0x1c, 0x4d, 0x0d], 65)], Phase.done, some (0 : Byte), #v[(3 : Word), 0]) := by
  decide +kernel

/-- 60_exceptions.md R108: a second `FINAL` raises. -/
theorem test_final_again : (after (exec .final finished)).responses = [[0x02]] := by decide +kernel

/-- 95_test_vectors.md X1, the source's one digest: `HASH 32, "Hello, world!"`. -/
theorem test_hash_hello :
    (after (exec (.hash 32 [0x48, 0x65, 0x6c, 0x6c, 0x6f, 0x2c, 0x20, 0x77, 0x6f, 0x72, 0x6c, 0x64, 0x21])
      State.reset)).responses =
    [[0x00], [0x00], [0x00,
      0xb5, 0xda, 0x44, 0x1c, 0xfe, 0x72, 0xae, 0x04, 0x2e, 0xf4, 0xd2, 0xb1, 0x77, 0x42, 0x90, 0x7f,
      0x67, 0x5d, 0xe4, 0xda, 0x57, 0x46, 0x2d, 0x4c, 0x36, 0x09, 0xc2, 0xe2, 0xed, 0x75, 0x59, 0x70]] := by
  decide +kernel

/-- 45_final_and_hash.md R102: a length of 0 sends the `INIT` only. -/
theorem test_hash_rejected : (after (exec (.hash 0 [0x61]) finished)).responses = [[0x01]] := by decide +kernel

/-- 60_exceptions.md R113, the examples: `02 01` in `IDLE`, `03 00 aa` in `DONE`, `01 00` in any phase. -/
theorem test_exception_priority :
    (after (step { State.reset with commands := [.packet [0x02, 0x01]] })).responses = [[0x03]] ∧
    (after (step { finished with commands := [.packet [0x03, 0x00, 0xaa]] })).responses = [[0x03]] ∧
    (after (step { finished with commands := [.packet [0x01, 0x00]] })).responses = [[0x01]] := by decide +kernel

/-! ### Witnesses: values that meet the hypotheses of each obligation -/

theorem witness_DecoderFollowsTheOpcodeMap :
    ([] : Packet).length < 2 ∧ ([0x01] : Packet).length < 2 ∧ (0x01 : Byte) ≠ 0x00 ∧ (0xff : Byte) ≠ 0x00 ∧
    ([0xaa] : List Byte) ≠ [] ∧ ((0x00 : Byte) ≠ 0x01 ∧ (0x00 : Byte) ≠ 0x02 ∧ (0x00 : Byte) ≠ 0x03) ∧
    ((0x04 : Byte) ≠ 0x01 ∧ (0x04 : Byte) ≠ 0x02 ∧ (0x04 : Byte) ≠ 0x03) := by decide

theorem witness_DecodeAndEncodeAgree :
    (Instr.init 0xff [1]).wellFormed = true ∧ (Instr.update []).wellFormed = true ∧ Instr.final.wellFormed = true ∧
    decode [0x01, 0x00] = .ok (.init 0 []) := by decide

theorem witness_AddAndXorOfWords : 0 < 64 ∧ 63 < 64 := by decide

theorem witness_LoadAndStoreAreInverse : 0 < 8 ∧ 7 < 8 ∧ (seqBytes 1 8).length = 8 := by decide

theorem witness_CounterIncrementCarries : 0 ≤ 128 ∧ 128 ≤ 128 := by decide

/-- Both clauses on the amount, and the first and last bit. -/
theorem witness_RotationMovesEachBit : 63 % 64 ≠ 0 ∧ 64 % 64 = 0 ∧ 0 < 64 ∧ 63 < 64 := by decide

theorem witness_MixerFollowsItsEightSteps :
    ([0, 4, 8, 12] : List (Fin 16)).Nodup ∧ (1 : Fin 16) ∉ ([0, 4, 8, 12] : List (Fin 16)) := by decide

theorem witness_MixerIsInvertible : ([3, 4, 9, 14] : List (Fin 16)).Nodup := by decide

theorem witness_MixerCommutesOnDisjointGroups : ([0, 4, 8, 12, 1, 5, 9, 13] : List (Fin 16)).Nodup := by decide

theorem witness_RoundAllowsAnyColumnAndDiagonalOrder :
    ([3, 1, 0, 2] : List (Fin 8)).Perm [0, 1, 2, 3] ∧ ([7, 6, 5, 4] : List (Fin 8)).Perm [4, 5, 6, 7] := by decide

/-- A block that can be read. -/
theorem witness_MessageWordsAreLittleEndian :
    memRead (holding 64 (zeros 128)) 0 128 = .ok (zeros 128) := read_full

theorem witness_CompressFeedsForward : ∃ t, compress (holding 64 (zeros 128)) = .ok t :=
  ⟨_, compress_of_read _ _ read_full⟩

theorem witness_BufferReadsAndWrites :
    125 + ([1, 2, 3] : List Byte).length ≤ 128 ∧ 128 < 126 + ([1, 2, 3] : List Byte).length ∧ 128 ≤ 128 ∧
    2 < ([1, 2, 3] : List Byte).length ∧ (124 < 125 ∨ 125 + ([1, 2, 3] : List Byte).length ≤ 124) := by decide

theorem witness_BufferKeepsItsCanonicalForm :
    (holding 64 [1, 2]).buf.wf = true ∧ (∃ t, memWrite (holding 64 [1, 2]) 125 [7, 8, 9] = .ok t) ∧ 128 < 128 + 1 ∧
    128 < 126 + ([1, 2, 3] : List Byte).length :=
  ⟨by decide, exists_ok _ (by decide), by decide, by decide⟩

/-- The bounds of `nn` and of the key length, with and without a key. -/
theorem witness_InitCreatesTheContext :
    1 ≤ (1 : Byte).toNat ∧ (1 : Byte).toNat ≤ 64 ∧ 1 ≤ (64 : Byte).toNat ∧ (64 : Byte).toNat ≤ 64 ∧
    ([] : List Byte).length ≤ 64 ∧ (seqBytes 0 64).length ≤ 64 ∧ seqBytes 0 64 ≠ [] := by decide +kernel

/-- Keys of one byte and of 64 bytes. -/
theorem witness_KeyedInitBuffersTheKeyBlock :
    1 ≤ (64 : Byte).toNat ∧ (64 : Byte).toNat ≤ 64 ∧ 1 ≤ ([9] : List Byte).length ∧ (seqBytes 0 64).length ≤ 64 := by
  decide +kernel

/-- The clauses at their bounds: 0, 65 and 255 bytes of digest, a key of 65 bytes. -/
theorem witness_InitRejectsOutOfRangeOperands :
    (0 : Byte).toNat = 0 ∧ 65 ≤ (65 : Byte).toNat ∧ 65 ≤ (255 : Byte).toNat ∧ 65 ≤ (seqBytes 0 65).length ∧
    (∃ t, exec (.update [1]) finished = .next t) ∧ (∃ t, exec .final finished = .next t) :=
  ⟨by decide, by decide, by decide, by decide +kernel, exists_next _ (by decide +kernel), exists_next _ (by decide +kernel)⟩

/-- Two engines with different pasts and the same streams, a key and the smallest length. -/
theorem witness_InitForgetsThePast :
    finished.commands = (holding 32 [5]).commands ∧ finished.responses = (holding 32 [5]).responses ∧
    (∃ t, exec (.init 1 [9]) finished = .next t) ∧ (∃ t, exec (.init 1 [9]) (holding 32 [5]) = .next t) :=
  ⟨rfl, rfl, exists_next _ (by decide +kernel), exists_next _ (by decide +kernel)⟩

/-- A payload that fills the buffer exactly, and an empty payload on a full buffer. -/
theorem witness_UpdateThatFitsOnlyBuffers :
    (holding 64 [1, 2]).phase = .active ∧ (holding 64 [1, 2]).buflen.val + (seqBytes 0 126).length ≤ 128 ∧
    (holding 64 (zeros 128)).buflen.val + ([] : List Byte).length ≤ 128 := by
  refine ⟨rfl, by decide +kernel, ?_⟩
  rw [holding_buflen 64 (zeros 128) (by simp)]
  simp

/-- An empty, a partly filled and a full buffer. -/
theorem witness_UpdateReachesTheClosedForm :
    (holding 64 [1, 2]).phase = .active ∧ memRead (holding 64 []) 0 (holding 64 []).buflen.val = .ok [] ∧
    memRead (holding 64 [1, 2]) 0 (holding 64 [1, 2]).buflen.val = .ok [1, 2] ∧
    memRead (holding 64 (zeros 128)) 0 (holding 64 (zeros 128)).buflen.val = .ok (zeros 128) :=
  ⟨rfl, read_valid 64 [] (by decide), read_valid 64 [1, 2] (by decide), read_valid 64 (zeros 128) (by simp)⟩

theorem witness_EmptyUpdateChangesNothing : (holding 64 (zeros 128)).phase = .active := rfl

theorem witness_AbsorbIsChunkInvariant : ∃ t, absorb [1, 2, 3] (holding 64 (zeros 128)) = .ok t :=
  (absorb_total _ _ (validWritten_of_read _ _ (read_valid 64 (zeros 128) (by simp)))).imp fun _ h => h.1

theorem witness_FinalReturnsTheDigest :
    (holding 64 [1, 2]).phase = .active ∧
    memRead (holding 64 [1, 2]) 0 (holding 64 [1, 2]).buflen.val = .ok [1, 2] := by decide +kernel

theorem witness_DigestIsTheFirstBytesOfOut : (64 : Byte).toNat ≤ 64 := by decide

theorem witness_CommandsNeedAnActiveContext :
    State.reset.phase ≠ .active ∧ finished.phase ≠ .active ∧ (∃ t, exec (.init 65 []) finished = .next t) :=
  ⟨by decide, by decide, exists_next _ (by decide +kernel)⟩

theorem witness_HashComputesBlake2b :
    1 ≤ (1 : Byte).toNat ∧ (1 : Byte).toNat ≤ 64 ∧ 1 ≤ (64 : Byte).toNat ∧ (64 : Byte).toNat ≤ 64 := by decide

theorem witness_HashStopsAtARejectedInit : (0 : Byte).toNat = 0 ∧ 65 ≤ (65 : Byte).toNat := by decide

/-- The lengths in range and out of range at their bounds. -/
theorem witness_HashIsItsThreePackets :
    1 ≤ (1 : Byte).toNat ∧ (1 : Byte).toNat ≤ 64 ∧ (0 : Byte).toNat = 0 ∧ 65 ≤ (65 : Byte).toNat := by decide

theorem witness_KeyedProgramsComputeBlake2b :
    1 ≤ (64 : Byte).toNat ∧ (64 : Byte).toNat ≤ 64 ∧ (seqBytes 0 64).length ≤ 64 := by decide +kernel

/-- One packet for each status. -/
theorem witness_EachPacketGetsItsOneStatus :
    ([[0x01, 0x40], [0x01, 0x00], [0x02, 0x00, 0x61], [0x03, 0x00], [0xff]] : List Packet).all (fun p =>
      safeOutcome (step { State.reset with commands := [.packet p] })) = true := by decide +kernel

/-- A raised status of each kind. -/
theorem witness_RaisingCommandsChangeNothing :
    ([([0x01, 0x00], 0x01), ([0x02, 0x00, 0x61], 0x02), ([0x03, 0x00], 0x02), ([0xff], 0x03)] : List (Packet × Byte)).all
      (fun p => safeOutcome (step { State.reset with commands := [.packet p.1] }) &&
        ((after (step { State.reset with commands := [.packet p.1] })).responses == [[p.2]]) && (p.2 != 0x00)) = true := by
  decide +kernel

theorem witness_IllegalPacketsAreAnswered :
    ({ finished with commands := [.packet [0x03, 0x01]] } : State).commands = .packet [0x03, 0x01] :: [] ∧
    illegalPacket [0x03, 0x01] = true ∧ illegalPacket [0x01] = true ∧ illegalPacket [0x04, 0x00] = true := by decide

theorem witness_StepRunsTheDecodedCommand :
    ({ finished with commands := [.packet [0x02, 0x00, 0x61], .reset none] } : State).commands =
      .packet [0x02, 0x00, 0x61] :: [.reset none] ∧
    decode [0x02, 0x00, 0x61] = .ok (.update [0x61]) := by decide

theorem witness_WaitingAndReset :
    State.reset.commands = [] ∧
    ({ finished with commands := [.reset (some [0x03, 0x00])] } : State).commands = .reset (some [0x03, 0x00]) :: [] ∧
    ({ finished with commands := [.reset none] } : State).commands = .reset none :: [] := by decide

theorem witness_ResetAcceptsOnlyInit :
    1 ≤ (1 : Byte).toNat ∧ (1 : Byte).toNat ≤ 64 ∧ 1 ≤ (64 : Byte).toNat ∧ (64 : Byte).toNat ≤ 64 := by decide

theorem witness_PhaseChangesOnlyByInitFinalReset :
    finished.phase ≠ .active ∧
    ([.packet [0x01, 0x40], .packet [0x01, 0x00], .packet [0x02, 0x00], .packet [0xff]] : List HostEvent).all (fun ev =>
      safeOutcome (step { holding 64 [1] with commands := [ev] })) = true ∧
    (∃ t, step { holding 64 [1] with commands := [.packet [0x03, 0x00]] } = .next t) ∧
    ∃ t, step { holding 64 [1] with commands := [.reset none] } = .next t :=
  ⟨by decide, by decide +kernel, step_final_holding, _, rfl⟩

theorem witness_CommandsWriteOnlyTheirRegisters :
    (∃ t, exec (.init 64 []) (holding 32 [1]) = .next t) ∧ (∃ t, exec (.init 64 [1]) (holding 32 [1]) = .next t) ∧
    (∃ t, exec (.update [2, 3]) (holding 32 [1]) = .next t) ∧
    (∃ t, exec .final (holding 32 [1]) = .next t) ∧ (∃ t, exec (.hash 0 [1]) (holding 32 [1]) = .next t) :=
  ⟨exists_next _ (by decide +kernel), exists_next _ (by decide +kernel), exists_next _ (by decide +kernel),
    exec_final_holding 32, exists_next _ (by decide +kernel)⟩

/-- States that meet the invariant in each phase, an active one with a packet to take. -/
theorem witness_EveryStepKeepsTheInvariant :
    finished.Inv ∧ (holding 64 []).Inv ∧
    ({ holding 64 [1] with commands := [.packet [0x03, 0x00]] } : State).Inv ∧
    ∃ t, step { holding 64 [1] with commands := [.packet [0x03, 0x00]] } = .next t :=
  ⟨by decide +kernel, by decide +kernel, by decide +kernel, step_final_holding⟩

theorem witness_EveryStepCompletes :
    ({ holding 64 [1] with commands := [.packet [0x03, 0x00]] } : State).Inv := by decide +kernel

theorem witness_EveryRunAnswersEachPacket : finished.Inv := by decide +kernel

/-- Two engines that agree and differ in stale bytes, `V` and `KK`, with a packet to take. -/
theorem witness_HiddenStateNeverReachesTheHost :
    State.agree { holding 64 [1] with commands := [.packet [0x03, 0x00]] }
      { hiddenOther 64 [1] with commands := [.packet [0x03, 0x00]] } ∧
    holding 64 [1] ≠ hiddenOther 64 [1] ∧
    ∃ t, step { holding 64 [1] with commands := [.packet [0x03, 0x00]] } = .next t :=
  ⟨by decide +kernel, by decide +kernel, step_final_holding⟩

theorem witness_EnginesAreIndependent :
    (0 : Nat) ≠ 1 ∧ (System.stepEngine [finished, State.reset] 0).isSome = true ∧
    (System.stepEngine [finished, State.reset] 1).isSome = true := by decide +kernel

end Sys2Proof.Tests.Slice0
end

section
/-! What each command and each step does to `PHASE` (10_state.md R17). -/

namespace Sys2Proof.Machine

/-- `INIT` answers with `PHASE` at `ACTIVE` where its operands are in range, and as it was where they are not (R85, R86). -/
theorem exec_init_phase (s t : State) (nn : Byte) (key : List Byte) (h : exec (.init nn key) s = .next t) :
    t.phase = if 1 ≤ nn.toNat ∧ nn.toNat ≤ 64 ∧ key.length ≤ 64 then .active else s.phase := by
  simp only [← initOperandsLegal_iff]
  obtain ⟨hl, rfl⟩ | ⟨hl, -, rfl⟩ | ⟨hl, -, rfl⟩ := exec_init_cases s t nn key h <;> simp [hl]

/-- `UPDATE` answers with `PHASE` as it was (R91, R108). -/
theorem exec_update_phase (s t : State) (data : List Byte) (h : exec (.update data) s = .next t) :
    t.phase = s.phase := by
  obtain ⟨-, rfl⟩ | ⟨-, s1, ha, rfl⟩ := exec_update_cases s t data h
  · exact takeException_phase s _
  · obtain ⟨-, -, -, hphase, -⟩ := absorb_frame data s s1 ha
    exact hphase

/-- `FINAL` answers with `PHASE` at `DONE` where it was `ACTIVE`, and as it was elsewhere (R98, R108). -/
theorem exec_final_phase (s t : State) (h : exec .final s = .next t) :
    t.phase = if s.phase = .active then .done else s.phase := by
  obtain ⟨hp, rfl⟩ | ⟨hp, old, -, rfl⟩ := exec_final_cases s t h <;> simp [hp]

/-- Settles O43: each way a step answers (`step_cases`), and what each command that decodes does to `PHASE`. -/
theorem phaseChangesOnlyByInitFinalReset : Obligations.PhaseChangesOnlyByInitFinalReset := by
  refine ⟨rfl, rfl, rfl, rfl, fun s hp => ⟨fun data => exec_update_rejected s data hp, exec_final_rejected s hp⟩,
    fun s t ev rest hc hs => ?_⟩
  obtain ⟨hnil, -⟩ | ⟨cut, rest', hev, rfl⟩ | ⟨p, rest', e, hev, hd, rfl⟩ | ⟨p, rest', i, hev, hd, he⟩ :=
    step_cases s t hs
  · cases hc.symm.trans hnil
  · cases hc.symm.trans hev
    exact takeReset_phase _
  · cases hc.symm.trans hev
    simp [hd]
  · cases hc.symm.trans hev
    obtain ⟨nn, key, -, rfl⟩ | ⟨data, -, rfl⟩ | ⟨-, rfl⟩ := decode_ok_cases p i hd <;> simp only [hd]
    · exact exec_init_phase (s.consume rest 1) t nn key he
    · exact exec_update_phase (s.consume rest 1) t data he
    · exact exec_final_phase (s.consume rest 1) t he

end Sys2Proof.Machine
end

section
/-! The serialized state `OUT` as the stored words one after the other, and the digest cut from it (20_memory.md R33, R40). -/

namespace Sys2Proof.Machine

/-- Byte `8i + k` of stored words is byte `k` of word `i`, where there is a word `i` (R65). -/
theorem flatMap_store64_getElem? (ws : List Word) (i k : Nat) (hk : k < 8) :
    (ws.flatMap store64)[8 * i + k]? = ws[i]?.map (byteOf · k) := by
  induction ws generalizing i with
  | nil => rfl
  | cons w ws ih =>
    rw [List.flatMap_cons]
    cases i with
    | zero =>
      rw [List.getElem?_append_left (by rw [store64_length]; omega), Nat.mul_zero, Nat.zero_add, store64_getElem? w k hk]
      rfl
    | succ i =>
      rw [List.getElem?_append_right (by rw [store64_length]; omega), store64_length,
        show 8 * (i + 1) + k - 8 = 8 * i + k by omega, ih, List.getElem?_cons_succ]

/-- `OUT` is the chaining words stored in order (R33). -/
theorem outBytes_eq_flatMap (h : Vector Word 8) : outBytes h = h.toList.flatMap store64 := by
  have hwords : h = #v[h[0], h[1], h[2], h[3], h[4], h[5], h[6], h[7]] := by
    ext i hi
    interval_cases i <;> rfl
  rw [hwords]
  rfl

@[simp] theorem outBytes_length (h : Vector Word 8) : (outBytes h).length = 64 := rfl

theorem outBytes_getElem? (h : Vector Word 8) (i k : Fin 8) : (outBytes h)[8 * i.val + k.val]? = some (byteOf h[i] k) := by
  rw [outBytes_eq_flatMap, flatMap_store64_getElem? _ _ _ k.isLt]
  simp

theorem digest_length (nn : Byte) (h : Vector Word 8) (hn : nn.toNat ≤ 64) : (digest nn h).length = nn.toNat := by
  rw [digest, List.length_take, outBytes_length, Nat.min_eq_left hn]

/-- Settles O31: `OUT` is the chaining words stored in order (`outBytes_getElem?`), and the digest is cut from its 64 bytes. -/
theorem digestIsTheFirstBytesOfOut : Obligations.DigestIsTheFirstBytesOfOut := by
  refine fun h nn => ⟨outBytes_length h, fun i k => ?_, rfl, digest_length nn h⟩
  rw [outBytes_getElem?, Option.map_some, byteOf_toNat]

end Sys2Proof.Machine
end

section
/-! The decoder as a table (30_encoding.md R46 to R49, R51, R54): the packets that decode to each command, every other one being
illegal, and the header's masks. -/

namespace Sys2Proof.Machine

/-! ### The packets of each command -/

theorem decode_eq_init_iff (p : Packet) (nn : Byte) (key : List Byte) :
    decode p = .ok (.init nn key) ↔ p = 0x01 :: nn :: key := by
  refine ⟨fun h => ?_, fun h => h ▸ decode_init nn key⟩
  obtain ⟨_, _, hp, hi⟩ | ⟨_, -, hi⟩ | ⟨-, hi⟩ := decode_ok_cases p _ h <;> cases hi
  exact hp

theorem decode_eq_update_iff (p : Packet) (data : List Byte) :
    decode p = .ok (.update data) ↔ p = 0x02 :: 0x00 :: data := by
  refine ⟨fun h => ?_, fun h => h ▸ decode_update data⟩
  obtain ⟨_, _, -, hi⟩ | ⟨_, hp, hi⟩ | ⟨-, hi⟩ := decode_ok_cases p _ h <;> cases hi
  exact hp

theorem decode_eq_final_iff (p : Packet) : decode p = .ok .final ↔ p = [0x03, 0x00] := by
  refine ⟨fun h => ?_, fun h => h ▸ decode_final⟩
  obtain ⟨_, _, -, hi⟩ | ⟨_, -, hi⟩ | ⟨hp, -⟩ := decode_ok_cases p _ h
  · cases hi
  · cases hi
  · exact hp

theorem illegalPacket_of_error (p : Packet) (e : IllegalPacket) (h : decode p = .error e) : illegalPacket p = true := by
  rw [illegalPacket, h]

theorem illegalPacket_of_ok (p : Packet) (i : Instr) (h : decode p = .ok i) : illegalPacket p = false := by
  rw [illegalPacket, h]

/-- The illegal packets are those of no command (R51). -/
theorem illegalPacket_iff (p : Packet) :
    illegalPacket p = true ↔
      (∀ nn key, p ≠ 0x01 :: nn :: key) ∧ (∀ data, p ≠ 0x02 :: 0x00 :: data) ∧ p ≠ [0x03, 0x00] := by
  simp only [ne_eq, ← decode_eq_init_iff, ← decode_eq_update_iff, ← decode_eq_final_iff]
  cases hd : decode p with
  | error e => simp [illegalPacket_of_error p e hd]
  | ok i =>
    obtain ⟨_, _, -, rfl⟩ | ⟨_, -, rfl⟩ | ⟨-, rfl⟩ := decode_ok_cases p i hd <;> simp [illegalPacket_of_ok p _ hd]

/-- A packet without the two header bytes is no command's (R51). -/
theorem illegalPacket_of_short (p : Packet) (h : p.length < 2) : illegalPacket p = true := by
  refine (illegalPacket_iff p).2 ⟨fun nn key hp => ?_, fun data hp => ?_, fun hp => ?_⟩ <;> simp [hp] at h

/-- The illegal packets that have a header, by operation code, argument and payload (R51). -/
theorem illegalPacket_cons_iff (opc arg : Byte) (pay : List Byte) :
    illegalPacket (opc :: arg :: pay) = true ↔
      opc ≠ 0x01 ∧ (opc = 0x02 → arg ≠ 0x00) ∧ (opc = 0x03 → arg = 0x00 → pay ≠ []) := by
  simp [illegalPacket_iff]

/-- Settles O1: the legal rows are the packets of `INIT`, `UPDATE` and `FINAL`, the illegal ones those of
`illegalPacket_of_short` and `illegalPacket_cons_iff`. -/
theorem decoderFollowsTheOpcodeMap : Obligations.DecoderFollowsTheOpcodeMap := by
  refine ⟨illegalPacket_of_short, fun opc arg pay => ?_⟩
  rw [illegalPacket_cons_iff]
  refine ⟨?_, ?_, ?_, ?_, ?_, ?_, ?_⟩
  · rintro rfl
    exact decode_init arg pay
  · rintro rfl rfl
    exact decode_update pay
  · rintro rfl harg
    exact ⟨by decide, fun _ => harg, fun hfinal => absurd hfinal (by decide)⟩
  · rintro rfl rfl rfl
    exact decode_final
  · rintro rfl - hpay
    exact ⟨by decide, fun hupdate => absurd hupdate (by decide), fun _ _ => hpay⟩
  · rintro rfl harg
    exact ⟨by decide, fun hupdate => absurd hupdate (by decide), fun _ hzero => absurd hzero harg⟩
  · intro hinit hupdate hfinal
    exact ⟨hinit, fun h => absurd h hupdate, fun h => absurd h hfinal⟩

/-! ### The header -/

theorem header_toNat (opc arg : Byte) : (header opc arg).toNat = opc.toNat + 256 * arg.toNat := by
  rw [header, BitVec.toNat_append, ← Nat.shiftLeft_add_eq_or_of_lt opc.isLt, Nat.shiftLeft_eq]
  omega

theorem header_inj (opc arg opc' arg' : Byte) : header opc arg = header opc' arg' ↔ opc = opc' ∧ arg = arg' := by
  simp only [← BitVec.toNat_inj, header_toNat]
  omega

/-- A mask, itself a header, acts on the two bytes apart. -/
theorem header_and (opc arg opcMask argMask : Byte) :
    header opc arg &&& header opcMask argMask = header (opc &&& opcMask) (arg &&& argMask) := BitVec.and_append

/-- The mask of `INIT` keeps the operation code (R47). -/
theorem header_and_00FF (opc arg : Byte) : header opc arg &&& 0x00FF = header opc 0x00 :=
  (header_and opc arg 0xFF 0x00).trans (congrArg₂ header BitVec.and_allOnes BitVec.and_zero)

/-- The mask of `UPDATE` and `FINAL` keeps the whole header (R48, R49). -/
theorem header_and_FFFF (opc arg : Byte) : header opc arg &&& 0xFFFF = header opc arg := BitVec.and_allOnes

/-- Settles O3: each match is a header too, so masked headers agree where operation code and kept argument do (`header_inj`). -/
theorem headerMaskSelectsTheCommand : Obligations.HeaderMaskSelectsTheCommand := by
  intro opc arg pay
  rw [decode_eq_init_iff, decode_eq_update_iff, decode_eq_final_iff, header_and_00FF, header_and_FFFF,
    show (0x0001 : BitVec 16) = header 0x01 0x00 from rfl, show (0x0002 : BitVec 16) = header 0x02 0x00 from rfl,
    show (0x0003 : BitVec 16) = header 0x03 0x00 from rfl, header_inj, header_inj, header_inj]
  simp [header_toNat, and_assoc]

end Sys2Proof.Machine
end

section
/-! What each command and each packet is answered (60_exceptions.md R107 to R109, R113; 30_encoding.md R52, R53). -/

namespace Sys2Proof.Machine

/-- A step on a packet raises `IllegalCommand` or runs the command the packet decodes to (R109, R113). -/
theorem step_packet_cases (s t : State) (p : Packet) (rest : List HostEvent) (hc : s.commands = .packet p :: rest)
    (hs : step s = .next t) :
    (∃ e, decode p = .error e ∧ t = takeException (s.consume rest 1) .illegalCommand) ∨
    ∃ i, decode p = .ok i ∧ exec i (s.consume rest 1) = .next t := by
  obtain ⟨hnil, -⟩ | ⟨cut, rest', hev, -⟩ | ⟨p', rest', e, hev, hd, ht⟩ | ⟨p', rest', i, hev, hd, he⟩ :=
    step_cases s t hs
  · cases hc.symm.trans hnil
  · cases hc.symm.trans hev
  · cases hc.symm.trans hev
    exact .inl ⟨e, hd, ht⟩
  · cases hc.symm.trans hev
    exact .inr ⟨i, hd, he⟩

/-- The operands that `INIT` rejects (R85, R107). -/
theorem initOperandsLegal_eq_false_iff (nn : Byte) (key : List Byte) :
    initOperandsLegal nn key = false ↔ nn.toNat = 0 ∨ 65 ≤ nn.toNat ∨ 65 ≤ key.length := by
  rw [← Bool.not_eq_true, initOperandsLegal_iff]
  omega

/-- `INIT` answers one byte, its operand check (R88, R107). -/
theorem exec_init_responses (s t : State) (nn : Byte) (key : List Byte) (h : exec (.init nn key) s = .next t) :
    t.responses = s.responses ++ [[if initOperandsLegal nn key then 0x00 else 0x01]] := by
  obtain ⟨hl, rfl⟩ | ⟨hl, -, rfl⟩ | ⟨hl, -, rfl⟩ := exec_init_cases s t nn key h <;> rw [hl] <;> rfl

/-- `UPDATE` answers one byte, its phase check (R91, R108). -/
theorem exec_update_responses (s t : State) (data : List Byte) (h : exec (.update data) s = .next t) :
    t.responses = s.responses ++ [[if s.phase = .active then 0x00 else 0x02]] := by
  obtain ⟨hp, rfl⟩ | ⟨hp, s1, ha, rfl⟩ := exec_update_cases s t data h
  · rw [if_neg hp]
    rfl
  · obtain ⟨-, -, -, -, -, hresponses, -⟩ := absorb_frame data s s1 ha
    rw [if_pos hp, respond_responses, hresponses]
    rfl

/-- `FINAL` answers its phase check, with result bytes only where that passes (R98, R100, R108). -/
theorem exec_final_responses (s t : State) (h : exec .final s = .next t) :
    ∃ result, t.responses = s.responses ++ [(if s.phase = .active then 0x00 else 0x02) :: result] ∧
      (s.phase ≠ .active → result = []) := by
  obtain ⟨hp, rfl⟩ | ⟨hp, old, -, rfl⟩ := exec_final_cases s t h
  · exact ⟨[], by rw [if_neg hp]; rfl, fun _ => rfl⟩
  · exact ⟨_, by rw [if_pos hp]; rfl, fun hn => absurd hp hn⟩

/-- Settles O37: the packet is illegal or one of the three commands, and each command's answer is decided by one check: the
operands of `INIT`, the phase for `UPDATE` and `FINAL` (R113). -/
theorem eachPacketGetsItsOneStatus : Obligations.EachPacketGetsItsOneStatus := by
  intro s t p rest hc hs
  obtain ⟨e, hd, rfl⟩ | ⟨i, hd, he⟩ := step_packet_cases s t p rest hc hs
  · exact ⟨0x03, [], rfl, by simp [illegalPacket_of_error p e hd, hd]⟩
  have hlegal := illegalPacket_of_ok p i hd
  obtain ⟨nn, key, -, rfl⟩ | ⟨data, -, rfl⟩ | ⟨-, rfl⟩ := decode_ok_cases p i hd
  · refine ⟨_, [], exec_init_responses (s.consume rest 1) t nn key he, ?_⟩
    simp only [← initOperandsLegal_eq_false_iff]
    cases hl : initOperandsLegal nn key <;> simp [hlegal, hd, hl]
  · refine ⟨_, [], exec_update_responses (s.consume rest 1) t data he, ?_⟩
    by_cases hp : s.phase = .active <;> simp [hlegal, hd, hp]
  · obtain ⟨result, hresponses, hempty⟩ := exec_final_responses (s.consume rest 1) t he
    refine ⟨_, result, hresponses, ?_⟩
    by_cases hp : s.phase = .active
    · simp [hlegal, hd, hp]
    · simp [hlegal, hd, hp, hempty hp]

end Sys2Proof.Machine
end

section
/-! The word operations as numbers and bit by bit, the byte conversions as mutual inverses, and `INC_T` (40_word_arithmetic.md R61
to R66). -/

namespace Sys2Proof.Machine

/-- Settles O6: the laws of addition modulo `2^64` and of exclusive or are those of `BitVec`. -/
theorem addAndXorOfWords : Obligations.AddAndXorOfWords := fun a b c =>
  ⟨BitVec.toNat_add a b, BitVec.add_zero a, BitVec.add_comm a b, BitVec.add_assoc a b c,
    fun _ _ => BitVec.getLsbD_xor, BitVec.xor_zero, BitVec.xor_self, BitVec.xor_allOnes⟩

/-- A rotation by an amount that is no multiple of 64 is the sum of two shifts (R63). -/
theorem rotr64_toNat (w : Word) (n : Nat) (hn : n % 64 ≠ 0) :
    (rotr64 w n).toNat = (w.toNat / 2 ^ (n % 64) + w.toNat * 2 ^ (64 - n % 64)) % 2 ^ 64 := by
  rw [rotr64, if_neg hn, BitVec.toNat_add, BitVec.toNat_ushiftRight, BitVec.toNat_shiftLeft, Nat.shiftRight_eq_div_pow,
    Nat.shiftLeft_eq, Nat.add_mod_mod]

theorem rotr64_of_mod_eq_zero (w : Word) (n : Nat) (hn : n % 64 = 0) : rotr64 w n = w := if_pos hn

/-- A rotation right by 63 places is one left by one place. -/
theorem rotr64_63 (w : Word) : rotr64 w 63 = w.rotateLeft 1 := by
  apply BitVec.eq_of_getLsbD_eq
  intro k hk
  rw [rotr64_getLsbD w 63 k hk, BitVec.getLsbD_rotateLeft]
  by_cases hlow : k < 1 % 64
  · rw [decide_eq_true hlow, cond_true]
    congr 1
    omega
  · rw [decide_eq_false hlow, cond_false, decide_eq_true hk, Bool.true_and]
    congr 1
    omega

/-- Settles O7: the two shifts of the rule, and the bits they move (`rotr64_getLsbD`). -/
theorem rotationMovesEachBit : Obligations.RotationMovesEachBit := fun w n =>
  ⟨rotr64_toNat w n, rotr64_of_mod_eq_zero w n, rotr64_getLsbD w n, rotr64_of_mod_eq_zero w 0 rfl,
    rotr64_of_mod_eq_zero w 64 rfl, rotr64_63 w⟩

/-- Strings of one length that stand for the same number are equal. -/
theorem leNat_injective (s u : List Byte) (hlen : s.length = u.length) (h : leNat s = leNat u) : s = u := by
  induction s generalizing u with
  | nil => exact (List.length_eq_zero_iff.1 hlen.symm).symm
  | cons b bs ih =>
    obtain ⟨c, cs, rfl⟩ := List.exists_cons_of_length_eq_add_one hlen.symm
    simp only [leNat] at h
    have hb := b.isLt
    have hc := c.isLt
    rw [BitVec.eq_of_toNat_eq (show b.toNat = c.toNat by omega),
      ih cs (Nat.succ.inj hlen) (by omega)]

/-- The stored bytes stand for the word's own number (R65). -/
theorem leNat_store64 (w : Word) : leNat (store64 w) = w.toNat := by
  have hw := w.isLt
  simp only [store64, leNat, byteOf_toNat]
  omega

theorem load64_store64 (w : Word) : load64 (store64 w) = w := by
  rw [load64, leNat_store64, BitVec.ofNat_toNat, BitVec.setWidth_eq]

theorem store64_load64 (s : List Byte) (hs : s.length = 8) : store64 (load64 s) = s :=
  leNat_injective _ _ ((store64_length _).trans hs.symm) ((leNat_store64 _).trans (load64_toNat s hs))

/-- Settles O8: both conversions keep the number that the bytes stand for (`load64_toNat`, `leNat_store64`), which determines
eight bytes (`leNat_injective`). -/
theorem loadAndStoreAreInverse : Obligations.LoadAndStoreAreInverse := by
  refine ⟨fun b0 b1 b2 b3 b4 b5 b6 b7 => ?_, fun w k hk => ?_, fun w => ⟨store64_length w, load64_store64 w⟩, store64_load64⟩
  · rw [load64_toNat _ rfl]
    simp only [leNat]
    omega
  · rw [store64_getElem? w k hk, Option.map_some, byteOf_toNat]

theorem incCounter_low (t : Vector Word 2) (k : Nat) : (incCounter t k)[0] = add64 t[0] (BitVec.ofNat 64 k) := rfl

/-- The high word takes the carry when the new low word is below the addend (R66). -/
theorem incCounter_high (t : Vector Word 2) (k : Nat) :
    (incCounter t k)[1] = if (incCounter t k)[0].toNat < k then add64 t[1] 1 else t[1] :=
  if_congr decide_eq_true_iff rfl rfl

theorem incCounter_zero (t : Vector Word 2) : incCounter t 0 = t :=
  words2_ext _ _ (BitVec.add_zero t[0]) ((incCounter_high t 0).trans (if_neg (Nat.not_lt_zero _)))

/-- Settles O9: the two words of `INC_T`, the carry between them making one sum (`counterValue_incCounter`). -/
theorem counterIncrementCarries : Obligations.CounterIncrementCarries := fun s k hk =>
  ⟨incCounter_low s.t k, incCounter_high s.t k, counterValue_incCounter s.t k hk, rfl,
    congrArg (fun t => { s with t := t }) (incCounter_zero s.t)⟩

end Sys2Proof.Machine
end

section
/-! The eight steps of the mixer (41_mixer_g.md R70). -/

namespace Sys2Proof.Machine

/-- Settles O10: the closed form on the four words (`mixFour`) is the eight steps written out, and the model's `G` leaves that
closed form on its words and every other word as it was (`mixG_four`). -/
theorem mixerFollowsItsEightSteps : Obligations.MixerFollowsItsEightSteps := by
  intro v a b c d x y hn
  obtain ⟨hwords, hothers⟩ := mixG_four v a b c d x y hn
  simp only [four, mixFour, Prod.mk.injEq] at hwords
  obtain ⟨ha, hb, hc, hd⟩ := hwords
  exact ⟨ha, hb, hc, hd, hothers⟩

end Sys2Proof.Machine
end

section
/-! The message words of a block as reads of the buffer, and a round as its eight applications (42_compression.md R76, R78, R79;
20_memory.md R31, R32). -/

namespace Sys2Proof.Machine

/-- A part of a string that can be read can be read on its own (R31). -/
theorem memRead_part (s : State) (addr n : Nat) (bs : List Byte) (h : memRead s addr n = .ok bs) (o k : Nat) (hk : o + k ≤ n) :
    memRead s (addr + o) k = .ok ((bs.drop o).take k) := by
  rw [memRead_ok_iff] at h ⊢
  obtain ⟨hbound, hlen, hread⟩ := h
  refine ⟨by omega, ?_, fun i hi => ?_⟩
  · rw [List.length_take, List.length_drop]
    omega
  · rw [List.getElem?_take_of_lt hi, List.getElem?_drop, Nat.add_assoc, hread (o + i) (by omega)]

/-- A loaded word holds each of its eight bytes in the byte's own place (R64). -/
theorem byteOf_load64 (s : List Byte) (hs : s.length = 8) (k : Nat) (hk : k < 8) : some (byteOf (load64 s) k) = s[k]? := by
  rw [← store64_getElem? _ k hk, store64_load64 s hs]

/-- Byte `k` of word `i` of a block is the block's byte `8i + k` (R32). -/
theorem byteOf_blockWord (block : List Byte) (i k : Nat) (hi : 8 * i + 8 ≤ block.length) (hk : k < 8) :
    some (byteOf (blockWord block i) k) = block[8 * i + k]? := by
  have hlen : ((block.drop (8 * i)).take 8).length = 8 := by
    rw [List.length_take, List.length_drop]
    omega
  rw [blockWord, byteOf_load64 _ hlen k hk, List.getElem?_take_of_lt hk, List.getElem?_drop]

/-- Settles O16: word `i` is loaded from the part of the block at `8i` (`memRead_part`), and its bytes are that part's bytes
(`byteOf_blockWord`), where byte `j` of the block stands at `8 (j / 8) + j % 8`. -/
theorem messageWordsAreLittleEndian : Obligations.MessageWordsAreLittleEndian := by
  refine fun s block h => ⟨fun i => ⟨(block.drop (8 * i.val)).take 8, ?_, blockWords_getElem block i⟩, fun j => ?_⟩
  · simpa using memRead_part s 0 128 block h (8 * i.val) 8 (by omega)
  · obtain ⟨-, hlen, -⟩ := (memRead_ok_iff s 0 128 block).1 h
    have hword : (blockWords block)[j.val / 8] = blockWord block (j.val / 8) :=
      blockWords_getElem block ⟨j.val / 8, by omega⟩
    rw [hword, byteOf_blockWord block (j.val / 8) (j.val % 8) (by omega) (by omega), Nat.div_add_mod]

/-- The rounds are `ROUND(0)` to `ROUND(11)` in order (R79). -/
theorem rounds_eq_foldl_finRange (m v : Vector Word 16) : rounds m v = (List.finRange 12).foldl (applyRound m) v := by
  have hrows : List.finRange 12 = [0, 1, 2, 3, 4, 5, 6, 7, 8, 9, 10, 11] := by decide
  rw [hrows, rounds]

/-- Settles O17: the fold over the eight applications unrolled, each on its row of `GIDX` (R22), and the fold over the rounds. -/
theorem roundsAreWrittenOut : Obligations.RoundsAreWrittenOut := by
  refine fun m v => ⟨fun r => ?_, rounds_eq_foldl_finRange m v⟩
  simp only [applyRound, List.foldl_cons, List.foldl_nil, applyG]
  rfl

end Sys2Proof.Machine
end

section
/-! The context an accepted `INIT` creates (43_init.md R86, R88). -/

namespace Sys2Proof.Machine

/-- A key in range has its length in `KK` (R86). -/
theorem keyLength_toNat (key : List Byte) (h : key.length ≤ 64) : (BitVec.ofNat 8 key.length).toNat = key.length := by
  rw [BitVec.toNat_ofNat]
  omega

/-- An accepted `INIT` loads the context; the buffer and its length are all that a key makes different (R86 to R88). -/
theorem exec_init_accepted (s : State) (nn : Byte) (key : List Byte) (h : initOperandsLegal nn key = true) :
    ∃ buf n, exec (.init nn key) s =
        .next (respond (((s.loadContext nn (BitVec.ofNat 8 key.length)).setBuf buf).setBuflen n) .ok []) ∧
      (key = [] → n = 0 ∧ buf = s.buf) := by
  by_cases hk : key = []
  · subst hk
    exact ⟨s.buf, 0, exec_init_unkeyed s nn h, fun _ => ⟨rfl, rfl⟩⟩
  · exact ⟨_, 128, exec_init_keyed s nn key h hk, fun hnil => absurd hnil hk⟩

/-- Settles O21: the context of `exec_init_accepted`, field by field, with `P0` as the sum of R86 (`paramWord_eq`). -/
theorem initCreatesTheContext : Obligations.InitCreatesTheContext := by
  intro s nn key hpos hmax hkey
  obtain ⟨buf, n, hexec, hunkeyed⟩ := exec_init_accepted s nn key ((initOperandsLegal_iff nn key).2 ⟨hpos, hmax, hkey⟩)
  have hkk := keyLength_toNat key hkey
  refine ⟨_, hexec, ?_, initialChain_rest nn _, rfl, rfl, rfl, hkk, rfl, rfl, fun hnil => ?_, rfl, rfl, rfl, rfl⟩
  · exact (initialChain_first nn _).trans (by rw [paramWord_eq, hkk])
  · obtain ⟨rfl, rfl⟩ := hunkeyed hnil
    exact ⟨rfl, rfl⟩

end Sys2Proof.Machine
end

section
/-! `ABSORB` as the loop of its rule, and the empty `UPDATE` (44_update.md R90, R92). -/

namespace Sys2Proof.Machine

/-- What follows a completed block follows the fill, the count, the compression and the emptying, in that order (R90). -/
theorem completeBlock_bind (chunk : List Byte) (s : State) (k : State → Except Fault State) :
    (completeBlock chunk s >>= k) = (do
      let s1 ← memWrite s s.buflen.val chunk
      let s2 ← compress ((s1.setBuflen 128).incT 128)
      k (s2.setBuflen 0)) := by
  rw [completeBlock]
  cases memWrite s s.buflen.val chunk with
  | error e => rfl
  | ok s1 =>
    simp only [ok_bind]
    cases compress ((s1.setBuflen 128).incT 128) <;> rfl

/-- `ABSORB` of more bytes than there is room completes a block and goes on with the rest: the turns the loop has left bound
those of an `ABSORB` of the rest. -/
theorem absorb_of_exceeds (data : List Byte) (s : State) (h : data.length > freeRoom s) :
    absorb data s = completeBlock (data.take (freeRoom s)) s >>= absorb (data.drop (freeRoom s)) := by
  have hne : data ≠ [] := List.ne_nil_of_length_pos (Nat.zero_lt_of_lt h)
  rw [absorb, absorbLoop, if_neg hne, if_pos h]
  cases hc : completeBlock (data.take (freeRoom s)) s with
  | error e => rfl
  | ok s1 =>
    have hempty : s1.buflen.val = 0 := completeBlock_buflen _ s s1 hc
    have hturns : (data.drop (freeRoom s)).length ≤ (128 - s1.buflen.val) + 128 * (data.length / 128 + 1 - 1) := by
      rw [List.length_drop]
      omega
    exact (absorbLoop_eq_foldlM _ _ s1 (Or.inr ⟨by omega, hturns⟩)).trans (absorb_eq_foldlM _ s1).symm

/-- `ABSORB` of bytes that fit buffers them. -/
theorem absorb_of_fits (data : List Byte) (s : State) (h : data.length ≤ freeRoom s) :
    absorb data s = bufferRest data s := by
  have hroom : freeRoom s = 128 - s.buflen.val := rfl
  rw [absorb_eq_foldlM, foldlM_absorbByte_fits data s (by omega)]

/-- Settles O25, branch by branch of the loop: nothing left, `absorb_of_exceeds` and `absorb_of_fits`. -/
theorem absorbFollowsTheLoop : Obligations.AbsorbFollowsTheLoop := by
  intro data s
  split
  next hnil => rw [List.length_eq_zero_iff.1 hnil]; rfl
  next =>
    split
    next hgt => exact (absorb_of_exceeds data s hgt).trans (completeBlock_bind _ s _)
    next hle =>
      rw [absorb_of_fits data s (Nat.le_of_not_gt hle), bufferRest]
      cases memWrite s s.buflen.val data <;> rfl

/-- Settles O28: `ABSORB` of nothing changes nothing, and `UPDATE` then only answers (`exec_update_absorbed`). -/
theorem emptyUpdateChangesNothing : Obligations.EmptyUpdateChangesNothing := fun s hphase =>
  exec_update_absorbed s s [] hphase rfl

end Sys2Proof.Machine
end

section
/-! What `FINAL` leaves in the flags and in the padded buffer, and the digest it answers (45_final_and_hash.md R99, R100). -/

namespace Sys2Proof.Machine

/-- The last-block mark sets the first flag word and keeps the second (R99). -/
theorem markLastBlock_eq (f : Vector Word 2) : markLastBlock f = (#v[0xFFFFFFFFFFFFFFFF, f[1]] : Vector Word 2) :=
  words2_ext _ _ (Vector.getElem_set_self (by decide)) (Vector.getElem_set_ne (by decide) (by decide) (by decide))

/-- After the padding every address below 128 holds its byte of the padded block, and no other address is written (R99). -/
theorem read_padded (s : State) (old : List Byte) (h : memRead s 0 s.buflen.val = .ok old) (a : Nat) :
    Memory.read (Memory.writeBytes s.buf s.buflen.val (zeros (128 - s.buflen.val))) a =
      if a < 128 then (old ++ zeros (128 - s.buflen.val))[a]? else s.buf.read a := by
  obtain ⟨-, hread⟩ := (Memory.readBytes_eq_some _ _ _ _).1 (readBytes_padded s old h)
  split
  next hin => simpa using hread a hin
  next hout =>
    have hfill := s.buflen.isLt
    rw [Memory.read_writeBytes, zeros_length, if_neg (by omega)]

/-- Settles O30: `FINAL` marks the phase of the state after the last compression and answers its digest (`exec_final_active`);
the flags and the padded buffer of that state are `markLastBlock_eq` and `read_padded`. -/
theorem finalReturnsTheDigest : Obligations.FinalReturnsTheDigest := by
  intro s old hphase hread
  refine ⟨_, exec_final_active s old hphase hread, rfl, markLastBlock_eq s.f, rfl, fun a => ?_, rfl, rfl, rfl⟩
  rw [respond_buf, setPhase_buf, afterLast_buf]
  exact read_padded s old hread a

end Sys2Proof.Machine
end

section
/-! When each exception is raised, and that raising changes nothing but the response stream (60_exceptions.md R107 to R109,
R112). -/

namespace Sys2Proof.Machine

/-- Settles O23: the one answer of `INIT` is its operand check (`exec_init_responses`), that of `UPDATE` and `FINAL` the phase
check. -/
theorem initRejectsOutOfRangeOperands : Obligations.InitRejectsOutOfRangeOperands := by
  refine fun s => ⟨fun nn key => ?_, fun data t hexec => ?_, fun t hexec => ?_⟩
  · rw [← initOperandsLegal_eq_false_iff]
    refine ⟨fun hexec => ?_, exec_init_rejected s nn key⟩
    simpa using exec_init_responses s _ nn key hexec
  · rw [exec_update_responses s t data hexec]
    split <;> simp
  · obtain ⟨result, hrsp, -⟩ := exec_final_responses s t hexec
    rw [hrsp]
    split <;> simp

/-- Settles O32: the answer of `UPDATE` and `FINAL` is their phase check (`exec_update_responses`, `exec_final_responses`), that
of `INIT` its operand check. -/
theorem commandsNeedAnActiveContext : Obligations.CommandsNeedAnActiveContext := by
  refine fun s => ⟨fun data => ⟨fun hexec hactive => ?_, exec_update_rejected s data⟩,
    ⟨fun hexec hactive => ?_, exec_final_rejected s⟩, fun nn key t hexec => ?_⟩
  · simpa [hactive] using exec_update_responses s _ data hexec
  · obtain ⟨result, hrsp, -⟩ := exec_final_responses s _ hexec
    simp [hactive] at hrsp
  · rw [exec_init_responses s t nn key hexec]
    split <;> simp

/-- A step on a packet takes it and raises, or answers `OK` (R53, R112). -/
theorem step_packet_raises_or_ok (s t : State) (p : Packet) (rest : List HostEvent) (hc : s.commands = .packet p :: rest)
    (hs : step s = .next t) :
    (∃ e, t = takeException (s.consume rest 1) e) ∨ ∃ result, t.responses = s.responses ++ [0x00 :: result] := by
  obtain ⟨-, -, ht⟩ | ⟨i, hd, he⟩ := step_packet_cases s t p rest hc hs
  · exact .inl ⟨_, ht⟩
  obtain ⟨nn, key, -, rfl⟩ | ⟨data, -, rfl⟩ | ⟨-, rfl⟩ := decode_ok_cases p i hd
  · obtain ⟨-, ht⟩ | ⟨-, -, rfl⟩ | ⟨-, -, rfl⟩ := exec_init_cases _ t nn key he
    · exact .inl ⟨_, ht⟩
    · exact .inr ⟨[], rfl⟩
    · exact .inr ⟨[], rfl⟩
  · have hrsp := exec_update_responses _ t data he
    obtain ⟨-, ht⟩ | ⟨hp, -⟩ := exec_update_cases _ t data he
    · exact .inl ⟨_, ht⟩
    · rw [if_pos hp] at hrsp
      exact .inr ⟨[], hrsp⟩
  · obtain ⟨-, ht⟩ | ⟨-, old, -, rfl⟩ := exec_final_cases _ t he
    · exact .inl ⟨_, ht⟩
    · exact .inr ⟨_, rfl⟩

/-- Settles O38: a step on a packet that does not answer `OK` has only taken an exception (`step_packet_raises_or_ok`). -/
theorem raisingCommandsChangeNothing : Obligations.RaisingCommandsChangeNothing := by
  intro s t p rest status result hc hs hrsp hstatus
  obtain ⟨e, rfl⟩ | ⟨result', hok⟩ := step_packet_raises_or_ok s t p rest hc hs
  · obtain ⟨rfl, -⟩ : e.code = status ∧ [] = result := by simpa using hrsp
    rfl
  · obtain ⟨rfl, -⟩ : 0x00 = status ∧ result' = result := by simpa using hok.symm.trans hrsp
    exact absurd rfl hstatus

/-- A step on an illegal packet raises `IllegalCommand`, whatever the phase (R109). -/
theorem step_illegalPacket (s : State) (p : Packet) (rest : List HostEvent) (hc : s.commands = .packet p :: rest)
    (hp : illegalPacket p = true) : step s = .next (takeException (s.consume rest 1) .illegalCommand) := by
  rw [step, fetch, hc]
  cases hd : decode p with
  | error e => simp only [hd]; rfl
  | ok i => rw [illegalPacket_of_ok p i hd] at hp; cases hp

/-- The reasons a packet with a header is illegal: its operation code, a reserved argument that is not zero, or a payload of
`FINAL` (R109). -/
theorem illegalPacket_cons_iff_reasons (opc arg : Byte) (pay : List Byte) :
    illegalPacket (opc :: arg :: pay) = true ↔
      (opc ≠ 0x01 ∧ opc ≠ 0x02 ∧ opc ≠ 0x03) ∨ ((opc = 0x02 ∨ opc = 0x03) ∧ arg ≠ 0x00) ∨ (opc = 0x03 ∧ pay ≠ []) := by
  rw [illegalPacket_cons_iff]
  by_cases hinit : opc = 0x01
  · simp [hinit]
  by_cases hupdate : opc = 0x02
  · simp [hupdate]
  by_cases hfinal : opc = 0x03
  · simp [hfinal, imp_iff_not_or]
  · exact ⟨fun _ => .inl ⟨hinit, hupdate, hfinal⟩,
      fun _ => ⟨hinit, fun h => absurd h hupdate, fun h => absurd h hfinal⟩⟩

/-- Settles O39: a packet is too short or has a header (`illegalPacket_cons_iff_reasons`), and a step on an illegal one is
`step_illegalPacket`. -/
theorem illegalPacketsAreAnswered : Obligations.IllegalPacketsAreAnswered := by
  refine ⟨fun p => ?_, step_illegalPacket⟩
  match p with
  | [] => simp [illegalPacket_of_short]
  | [_] => simp [illegalPacket_of_short]
  | opc :: arg :: pay => simp [illegalPacket_cons_iff_reasons, and_assoc]

end Sys2Proof.Machine
end

section
/-! The decoder and the encoder undo each other (30_encoding.md section 4). -/

namespace Sys2Proof.Machine

/-- The well-formed instructions are those with a packet of their own (R57). -/
theorem wellFormed_iff_encode (i : Instr) : i.wellFormed = true ↔ ∃ p, encode i = some p := by
  cases i <;> simp [Instr.wellFormed, encode]

/-- A packet decodes to the instruction it encodes, and to no other (R54, R55). -/
theorem decode_eq_iff_encode (p : Packet) (i : Instr) : decode p = .ok i ↔ encode i = some p := by
  constructor
  · intro hd
    obtain ⟨nn, key, rfl, rfl⟩ | ⟨data, rfl, rfl⟩ | ⟨rfl, rfl⟩ := decode_ok_cases p i hd <;> rfl
  · intro he
    cases i with
    | init nn key => cases he; exact decode_init nn key
    | update data => cases he; exact decode_update data
    | final => cases he; exact decode_final
    | hash nn data => cases he

/-- Settles O2: the instructions with a packet are the well-formed ones, and `decode` is the inverse of `encode` on them
(`decode_eq_iff_encode`). -/
theorem decodeAndEncodeAgree : Obligations.DecodeAndEncodeAgree := by
  refine ⟨fun i hw => ?_, fun p i hd => ?_⟩
  · obtain ⟨p, he⟩ := (wellFormed_iff_encode i).1 hw
    exact ⟨p, he, (decode_eq_iff_encode p i).2 he⟩
  · have he := (decode_eq_iff_encode p i).1 hd
    exact ⟨(wellFormed_iff_encode i).2 ⟨p, he⟩, he⟩

end Sys2Proof.Machine
end

section
/-! What every command leaves alone: the command stream, the position and the responses already given (10_state.md R29). -/

namespace Sys2Proof.Machine

/-- From `s` to `t` responses may have been added; the command stream, the position and the count of resets are as they were. -/
def StreamsKept (s t : State) : Prop :=
  t.commands = s.commands ∧ t.ci = s.ci ∧ t.resets = s.resets ∧ s.responses <+: t.responses

theorem StreamsKept.trans {s t u : State} (h : StreamsKept s t) (h' : StreamsKept t u) : StreamsKept s u := by
  obtain ⟨hc, hi, hr, hp⟩ := h
  obtain ⟨hc', hi', hr', hp'⟩ := h'
  exact ⟨hc'.trans hc, hi'.trans hi, hr'.trans hr, hp.trans hp'⟩

theorem streamsKept_respond (s : State) (st : Status) (result : List Byte) : StreamsKept s (respond s st result) :=
  ⟨rfl, rfl, rfl, List.prefix_append _ _⟩

theorem streamsKept_absorb (data : List Byte) (s t : State) (h : absorb data s = .ok t) : StreamsKept s t := by
  obtain ⟨-, -, -, -, hc, hrsp, hi, hr⟩ := absorb_frame data s t h
  exact ⟨hc, hi, hr, hrsp ▸ List.prefix_rfl⟩

theorem exec_final_streams (s t : State) (h : exec .final s = .next t) : StreamsKept s t := by
  obtain ⟨-, rfl⟩ | ⟨-, old, -, rfl⟩ := exec_final_cases s t h
  · exact streamsKept_respond s _ _
  · exact ⟨rfl, rfl, rfl, List.prefix_append _ _⟩

/-- An instruction only adds responses to the streams (R29, R52). -/
theorem exec_streams (i : Instr) (s t : State) (h : exec i s = .next t) : StreamsKept s t := by
  cases i with
  | init nn key =>
    obtain ⟨-, rfl⟩ | ⟨-, -, rfl⟩ | ⟨-, -, rfl⟩ := exec_init_cases s t nn key h <;>
      exact ⟨rfl, rfl, rfl, List.prefix_append _ _⟩
  | update data =>
    obtain ⟨-, rfl⟩ | ⟨-, s1, ha, rfl⟩ := exec_update_cases s t data h
    · exact streamsKept_respond s _ _
    · exact (streamsKept_absorb data s s1 ha).trans (streamsKept_respond s1 _ _)
  | final => exact exec_final_streams s t h
  | hash nn data =>
    obtain ⟨-, rfl⟩ | ⟨-, s1, ha, hf⟩ := exec_hash_cases s t nn data h
    · exact streamsKept_respond s _ _
    · have hinit : StreamsKept s (respond (s.loadContext nn 0) .ok []) := streamsKept_respond (s.loadContext nn 0) _ _
      exact hinit.trans <| (streamsKept_absorb data _ s1 ha).trans <|
        (streamsKept_respond s1 _ _).trans (exec_final_streams _ t hf)

/-- The bytes of the buffer that `FINAL` does not write: the valid ones, and every address outside (R99). -/
theorem read_padding_kept (s : State) (a : Nat) (ha : a < s.buflen.val ∨ 128 ≤ a) :
    Memory.read (Memory.writeBytes s.buf s.buflen.val (zeros (128 - s.buflen.val))) a = s.buf.read a := by
  have hfill := s.buflen.isLt
  rw [Memory.read_writeBytes, zeros_length, if_neg (by omega)]

theorem exec_init_frame (s t : State) (nn : Byte) (key : List Byte) (h : exec (.init nn key) s = .next t) :
    t.v = s.v ∧ (key = [] → t.buf = s.buf) ∧ ∀ a, 128 ≤ a → t.buf.read a = s.buf.read a := by
  obtain ⟨-, rfl⟩ | ⟨-, -, rfl⟩ | ⟨hl, hk, rfl⟩ := exec_init_cases s t nn key h
  · exact ⟨rfl, fun _ => rfl, fun _ _ => rfl⟩
  · exact ⟨rfl, fun _ => rfl, fun _ _ => rfl⟩
  · obtain ⟨-, -, hkey⟩ := (initOperandsLegal_iff nn key).1 hl
    refine ⟨rfl, fun hnil => absurd hnil hk, fun a ha => ?_⟩
    rw [respond_buf, afterKey_buf, Memory.read_writeBytes, keyBlock_length key hkey, if_neg (by omega)]

theorem exec_update_frame (s t : State) (data : List Byte) (h : exec (.update data) s = .next t) :
    t.f = s.f ∧ t.nn = s.nn ∧ t.kk = s.kk ∧ t.phase = s.phase ∧ ∀ a, 128 ≤ a → t.buf.read a = s.buf.read a := by
  obtain ⟨-, rfl⟩ | ⟨-, s1, ha, rfl⟩ := exec_update_cases s t data h
  · exact ⟨rfl, rfl, rfl, rfl, fun _ _ => rfl⟩
  · obtain ⟨hf, hn, hk, hp, -⟩ := absorb_frame data s s1 ha
    exact ⟨hf, hn, hk, hp, absorb_outside data s s1 ha⟩

theorem exec_final_frame (s t : State) (h : exec .final s = .next t) :
    t.buflen = s.buflen ∧ t.nn = s.nn ∧ t.kk = s.kk ∧ t.f[1] = s.f[1] ∧
      ∀ a, a < s.buflen.val ∨ 128 ≤ a → t.buf.read a = s.buf.read a := by
  obtain ⟨-, rfl⟩ | ⟨-, old, -, rfl⟩ := exec_final_cases s t h
  · exact ⟨rfl, rfl, rfl, rfl, fun _ _ => rfl⟩
  · refine ⟨rfl, rfl, rfl, ?_, read_padding_kept s⟩
    simp [markLastBlock_eq]

/-- Settles O44: one frame for each of the three commands, and the streams for every instruction (`exec_streams`). -/
theorem commandsWriteOnlyTheirRegisters : Obligations.CommandsWriteOnlyTheirRegisters :=
  ⟨exec_init_frame, exec_update_frame, exec_final_frame, exec_streams⟩

end Sys2Proof.Machine
end

section
/-! The invariant (10_state.md R28): every instruction and every step keeps it, and under it every step answers, so that a run of
a program ends with an answer for each packet. -/

namespace Sys2Proof.Machine

/-- A reset leaves nothing the invariant asks about but the empty buffer (R120). -/
theorem inv_takeReset (s : State) : s.takeReset.Inv :=
  ⟨Memory.wf_nil, fun h => absurd rfl h, fun h => (nomatch h), fun h => (nomatch h)⟩

/-- A new context without a key: nothing is absorbed (R86). -/
theorem inv_loadContext (s : State) (nn : Byte) (hw : s.buf.wf = true) (h : initOperandsLegal nn [] = true) :
    (s.loadContext nn 0).Inv := by
  obtain ⟨hpos, hmax, -⟩ := (initOperandsLegal_iff nn []).1 h
  exact ⟨hw, fun _ => ⟨hpos, hmax, Nat.zero_le 64, rfl⟩,
    fun _ => ⟨rfl, rfl, fun a ha => absurd ha (Nat.not_lt_zero a), fun _ => ⟨rfl, rfl, rfl⟩⟩, fun h => (nomatch h)⟩

/-- A new context with a key: its block is held, and the buffer is full (R87). -/
theorem inv_afterKey (s : State) (nn : Byte) (key : List Byte) (hw : s.buf.wf = true)
    (h : initOperandsLegal nn key = true) : (afterKey s nn key).Inv := by
  obtain ⟨hpos, hmax, hkey⟩ := (initOperandsLegal_iff nn key).1 h
  have hlen := keyBlock_length key hkey
  have hfull : (afterKey s nn key).buflen.val = 128 := rfl
  refine ⟨Memory.wf_writeBytes _ _ _ (by rw [hlen]) hw, fun _ => ⟨hpos, hmax, ?_, rfl⟩,
    fun _ => ⟨rfl, rfl, fun a ha => ?_, fun hz => ?_⟩, fun h => (nomatch h)⟩
  · exact (keyLength_toNat key hkey).trans_le hkey
  · rw [afterKey_buf, Memory.read_writeBytes, if_pos (by omega), List.getElem?_eq_getElem (by omega)]
    rfl
  · rw [hfull] at hz
    cases hz

/-- Absorbing into an active context keeps the invariant (R90). -/
theorem absorb_keeps_inv (data : List Byte) (s t : State) (hs : s.Inv) (hp : s.phase = .active)
    (h : absorb data s = .ok t) : t.Inv := by
  obtain ⟨hw, hctx, hact, -⟩ := hs
  obtain ⟨hf, hn, hk, hphase, -⟩ := absorb_frame data s t h
  have hlegal : s.contextLegal := hctx (by rw [hp]; decide)
  have hactive : t.phase = .active := hphase.trans hp
  refine ⟨absorb_keeps_wf data s t hw h, fun _ => ?_, fun _ => absorb_keeps_active data s t (hact hp) h, fun hdone => ?_⟩
  · simpa only [State.contextLegal, hf, hn, hk] using hlegal
  · rw [hactive] at hdone
    cases hdone

/-- The last compression leaves a finished context: the buffer canonical, the flags marked (R99). -/
theorem inv_afterLast (s : State) (block : List Byte) (hs : s.Inv) (hp : s.phase = .active) :
    ((afterLast s block).setPhase .done).Inv := by
  obtain ⟨hw, hctx, -, -⟩ := hs
  obtain ⟨hpos, hmax, hkey, hf1⟩ := hctx (by rw [hp]; decide)
  refine ⟨Memory.wf_writeBytes _ _ _ (by rw [zeros_length]; omega) hw, fun _ => ⟨hpos, hmax, hkey, ?_⟩,
    fun h => (nomatch h), fun _ => ?_⟩
  · simpa [markLastBlock_eq] using hf1
  · simp [markLastBlock_eq]

theorem exec_final_keeps_inv (s t : State) (hs : s.Inv) (h : exec .final s = .next t) : t.Inv := by
  obtain ⟨-, rfl⟩ | ⟨hp, old, -, rfl⟩ := exec_final_cases s t h
  · exact hs
  · exact inv_afterLast s _ hs hp

/-- Every instruction keeps the invariant, which does not look at the responses. -/
theorem exec_keeps_inv (i : Instr) (s t : State) (hs : s.Inv) (h : exec i s = .next t) : t.Inv := by
  have hw : s.buf.wf = true := hs.1
  cases i with
  | init nn key =>
    obtain ⟨-, rfl⟩ | ⟨hl, rfl, rfl⟩ | ⟨hl, -, rfl⟩ := exec_init_cases s t nn key h
    · exact hs
    · exact inv_loadContext s nn hw hl
    · exact inv_afterKey s nn key hw hl
  | update data =>
    obtain ⟨-, rfl⟩ | ⟨hp, s1, ha, rfl⟩ := exec_update_cases s t data h
    · exact hs
    · exact absorb_keeps_inv data s s1 hs hp ha
  | final => exact exec_final_keeps_inv s t hs h
  | hash nn data =>
    obtain ⟨-, rfl⟩ | ⟨hl, s1, ha, hf⟩ := exec_hash_cases s t nn data h
    · exact hs
    · have hinit : (respond (s.loadContext nn 0) .ok []).Inv := inv_loadContext s nn hw hl
      have habsorbed : s1.Inv := absorb_keeps_inv data _ s1 hinit rfl ha
      exact exec_final_keeps_inv (respond s1 .ok []) t habsorbed hf

/-- Settles O46, by the ways a step answers (`step_cases`): a reset leaves the invariant whatever was before, and a command
keeps it (`exec_keeps_inv`). -/
theorem everyStepKeepsTheInvariant : Obligations.EveryStepKeepsTheInvariant := by
  intro s t hs hstep
  obtain ⟨-, rfl⟩ | ⟨cut, rest, -, rfl⟩ | ⟨p, rest, e, -, -, rfl⟩ | ⟨p, rest, i, -, -, he⟩ := step_cases s t hstep
  · exact hs
  · exact inv_takeReset _
  · exact hs
  · exact exec_keeps_inv i (s.consume rest 1) t hs he

/-- Settles O45: no context is held after reset, and the buffer is empty. -/
theorem resetMeetsTheInvariant : Obligations.ResetMeetsTheInvariant :=
  ⟨Memory.wf_nil, fun h => absurd rfl h, fun h => (nomatch h), fun h => (nomatch h)⟩

/-- While `ACTIVE` the invariant has the valid bytes held. -/
theorem validWritten_of_inv (s : State) (hs : s.Inv) (hp : s.phase = .active) : s.validWritten := by
  obtain ⟨-, -, hact, -⟩ := hs
  obtain ⟨-, -, hv, -⟩ := hact hp
  exact hv

/-- Under the invariant every command of the engine answers (R110). -/
theorem exec_answers (i : Instr) (s : State) (hs : s.Inv) : ∃ t, exec i s = .next t := by
  cases i with
  | init nn key =>
    cases hl : initOperandsLegal nn key with
    | false => exact ⟨_, exec_init_rejected s nn key hl⟩
    | true =>
      obtain ⟨buf, n, hexec, -⟩ := exec_init_accepted s nn key hl
      exact ⟨_, hexec⟩
  | update data =>
    by_cases hp : s.phase = .active
    · obtain ⟨s1, ha, -⟩ := absorb_total data s (validWritten_of_inv s hs hp)
      exact ⟨_, exec_update_absorbed s s1 data hp ha⟩
    · exact ⟨_, exec_update_rejected s data hp⟩
  | final =>
    by_cases hp : s.phase = .active
    · obtain ⟨old, hread⟩ := memRead_valid s (validWritten_of_inv s hs hp)
      exact ⟨_, exec_final_active s old hp hread⟩
    · exact ⟨_, exec_final_rejected s hp⟩
  | hash nn data =>
    cases hl : initOperandsLegal nn [] with
    | false => exact ⟨_, exec_hash_rejected s nn data hl⟩
    | true =>
      obtain ⟨s1, ha, hv, -⟩ := absorb_total data (respond (s.loadContext nn 0) .ok [])
        (fun a ha => absurd ha (Nat.not_lt_zero a))
      obtain ⟨-, -, -, hp, -⟩ := absorb_frame data _ s1 ha
      obtain ⟨old, hread⟩ := memRead_valid s1 hv
      exact ⟨_, (exec_hash_legal s s1 nn data hl ha).trans (exec_final_active (respond s1 .ok []) old hp hread)⟩

/-- A step on a packet that decodes runs the command on the state with the packet taken (R4, R45). -/
theorem step_decoded (s : State) (p : Packet) (rest : List HostEvent) (i : Instr) (hc : s.commands = .packet p :: rest)
    (hd : decode p = .ok i) : step s = exec i (s.consume rest 1) := by
  rw [step, fetch, hc]
  simp only [hd]
  rfl

/-- With nothing sent a step changes nothing. -/
theorem step_waiting (s : State) (hc : s.commands = []) : step s = .next s := by
  rw [step, fetch, hc]

/-- A reset in the command stream is taken, and counts the abandoned command if there is one (R120). -/
theorem step_reset (s : State) (cut : Option Packet) (rest : List HostEvent) (hc : s.commands = .reset cut :: rest) :
    step s = .next (s.consume rest (HostEvent.reset cut).commandsTaken).takeReset := by
  rw [step, fetch, hc]

/-- Under the invariant every step answers (R110, R128). -/
theorem step_answers (s : State) (hs : s.Inv) : ∃ t, step s = .next t := by
  cases hc : s.commands with
  | nil => exact ⟨s, step_waiting s hc⟩
  | cons ev rest =>
    cases ev with
    | reset cut => exact ⟨_, step_reset s cut rest hc⟩
    | packet p =>
      cases hd : decode p with
      | error e => exact ⟨_, step_illegalPacket s p rest hc (illegalPacket_of_error p e hd)⟩
      | ok i =>
        rw [step_decoded s p rest i hc hd]
        exact exec_answers i (s.consume rest 1) hs

/-- A step on a packet takes it and adds one response, which is not empty (R52, R110). -/
theorem step_packet_takes (s t : State) (p : Packet) (rest : List HostEvent) (hc : s.commands = .packet p :: rest)
    (hs : step s = .next t) :
    t.commands = rest ∧ t.ci = s.ci + 1 ∧ ∃ rsp, rsp ≠ [] ∧ t.responses = s.responses ++ [rsp] := by
  have hrsp : ∃ rsp, rsp ≠ [] ∧ t.responses = s.responses ++ [rsp] := by
    obtain ⟨status, result, hrsp, -⟩ := eachPacketGetsItsOneStatus s t p rest hc hs
    exact ⟨_, List.cons_ne_nil _ _, hrsp⟩
  obtain ⟨e, -, rfl⟩ | ⟨i, -, he⟩ := step_packet_cases s t p rest hc hs
  · exact ⟨rfl, rfl, hrsp⟩
  · obtain ⟨hcommands, hci, -⟩ := exec_streams i _ t he
    exact ⟨hcommands, hci, hrsp⟩

/-- Settles O47: `step_answers`, and what a step does with a packet (`step_packet_takes`). -/
theorem everyStepCompletes : Obligations.EveryStepCompletes := by
  intro s hs
  obtain ⟨t, ht⟩ := step_answers s hs
  exact ⟨t, ht, fun p rest hc => step_packet_takes s t p rest hc ht⟩

/-- A run over a stream of packets takes them all and answers each once. -/
theorem run_answers (prog : List Packet) (s : State) (hs : s.Inv) (hc : s.commands = prog.map .packet) :
    ∃ t, Host.Core.run Sys2Proof.core prog.length s = .next t ∧ t.Inv ∧
      t.responses.length = s.responses.length + prog.length ∧ t.ci = s.ci + prog.length ∧ t.commands = [] := by
  induction prog generalizing s with
  | nil => exact ⟨s, rfl, hs, rfl, rfl, hc⟩
  | cons p prog ih =>
    obtain ⟨s1, hstep⟩ := step_answers s hs
    obtain ⟨hcommands, hci, rsp, -, hrsp⟩ := step_packet_takes s s1 p _ hc hstep
    obtain ⟨t, hrun, hinv, hlen, hpos, hend⟩ := ih s1 (everyStepKeepsTheInvariant s s1 hs hstep) hcommands
    refine ⟨t, (run_next _ s s1 hstep).trans hrun, hinv, ?_, ?_, hend⟩
    · rw [hlen, hrsp, List.length_append, List.length_singleton, List.length_cons]
      omega
    · rw [hpos, hci, List.length_cons]
      omega

/-- Settles O48: a loaded program is a stream of packets, with no response given and the position at 0 (`run_answers`). -/
theorem everyRunAnswersEachPacket : Obligations.EveryRunAnswersEachPacket := by
  intro prog s hs
  obtain ⟨t, hrun, hinv, hlen, hpos, hend⟩ := run_answers prog (s.loadProgram prog) hs rfl
  exact ⟨t, hrun, hinv, hlen.trans (Nat.zero_add _), hpos.trans (Nat.zero_add _), hend⟩

end Sys2Proof.Machine
end

section
/-! What `INIT` leaves: the buffered key block (43_init.md R87), and nothing of the past (R89 (e)). Two engines that agree stay in
agreement (10_state.md R13, R16, R18, R27; 45_final_and_hash.md R101). -/

namespace Sys2Proof.Machine

/-- After a keyed `INIT` the buffer holds the key and then zeros, and no address outside it is written (R87). -/
theorem read_afterKey (s : State) (nn : Byte) (key : List Byte) (hkey : key.length ≤ 64) (a : Nat) :
    (afterKey s nn key).buf.read a =
      if a < key.length then key[a]? else if a < 128 then some 0 else s.buf.read a := by
  rw [afterKey_buf, Memory.read_writeBytes, keyBlock_length key hkey, Nat.sub_zero, keyBlock_getElem? key hkey]
  by_cases hin : a < 128
  · rw [if_pos (by omega), if_pos hin, if_pos hin]
  · rw [if_neg (by omega), if_neg (by omega), if_neg hin]

/-- Settles O22: the state after the key block (`afterKey`), which `INIT` only answers. -/
theorem keyedInitBuffersTheKeyBlock : Obligations.KeyedInitBuffersTheKeyBlock := by
  intro s nn key hpos hmax hkeyed hkey
  have hlegal : initOperandsLegal nn key = true := (initOperandsLegal_iff nn key).2 ⟨hpos, hmax, hkey⟩
  exact ⟨_, exec_init_keyed s nn key hlegal (List.ne_nil_of_length_pos hkeyed), rfl, rfl, rfl, rfl,
    read_afterKey s nn key hkey⟩

/-- The same `INIT` with operands in range leaves two engines with the same streams in agreement. -/
theorem exec_init_accepted_agree (s u s' u' : State) (nn : Byte) (key : List Byte) (h : initOperandsLegal nn key = true)
    (hc : s.commands = u.commands) (hr : s.responses = u.responses) (hs : exec (.init nn key) s = .next s')
    (hu : exec (.init nn key) u = .next u') : s'.agree u' := by
  obtain ⟨-, -, hkey⟩ := (initOperandsLegal_iff nn key).1 h
  have hrsp : s'.responses = u'.responses := by
    rw [exec_init_responses s s' nn key hs, exec_init_responses u u' nn key hu, hr]
  by_cases hk : key = []
  · subst hk
    obtain rfl := Host.Outcome.next.inj ((exec_init_unkeyed s nn h).symm.trans hs)
    obtain rfl := Host.Outcome.next.inj ((exec_init_unkeyed u nn h).symm.trans hu)
    exact ⟨hc, hrsp, rfl, fun _ => ⟨rfl, rfl, rfl, rfl, rfl, fun a ha => absurd ha (Nat.not_lt_zero a)⟩⟩
  · obtain rfl := Host.Outcome.next.inj ((exec_init_keyed s nn key h hk).symm.trans hs)
    obtain rfl := Host.Outcome.next.inj ((exec_init_keyed u nn key h hk).symm.trans hu)
    refine ⟨hc, hrsp, rfl, fun _ => ⟨rfl, rfl, rfl, rfl, rfl, fun a (ha : a < 128) => ?_⟩⟩
    rw [respond_buf, respond_buf, read_afterKey s nn key hkey, read_afterKey u nn key hkey, if_pos ha, if_pos ha]

/-- Settles O24: `exec_init_accepted_agree`, on operands in range. -/
theorem initForgetsThePast : Obligations.InitForgetsThePast := by
  intro s u s' u' nn key hpos hmax hkey hc hr hs hu
  exact exec_init_accepted_agree s u s' u' nn key ((initOperandsLegal_iff nn key).2 ⟨hpos, hmax, hkey⟩) hc hr hs hu

/-- Agreement is the same streams and phase, and while `ACTIVE` the same context. -/
theorem agree_iff (s u : State) :
    s.agree u ↔ s.commands = u.commands ∧ s.responses = u.responses ∧ s.phase = u.phase ∧
      (s.phase = .active → SameContext s u) := Iff.rfl

theorem agree_consume (s u : State) (h : s.agree u) (rest : List HostEvent) (n : Nat) :
    (s.consume rest n).agree (u.consume rest n) := by
  obtain ⟨-, hr, hp, hctx⟩ := h
  exact ⟨rfl, hr, hp, hctx⟩

/-- Engines in agreement that raise the same exception stay in agreement. -/
theorem agree_takeException (s u : State) (h : s.agree u) (e : Exception) :
    (takeException s e).agree (takeException u e) := by
  obtain ⟨hc, hr, hp, hctx⟩ := h
  exact ⟨hc, congrArg (· ++ [[e.code]]) hr, hp, hctx⟩

/-- Resets leave engines with the same streams in agreement: no context is held. -/
theorem agree_takeReset (s u : State) (h : s.agree u) : s.takeReset.agree u.takeReset := by
  obtain ⟨hc, hr, -, -⟩ := h
  exact ⟨hc, hr, rfl, fun hactive => (nomatch hactive)⟩

theorem exec_init_agree (s u s' : State) (nn : Byte) (key : List Byte) (h : s.agree u)
    (hs : exec (.init nn key) s = .next s') : ∃ u', exec (.init nn key) u = .next u' ∧ s'.agree u' := by
  cases hl : initOperandsLegal nn key with
  | false =>
    obtain rfl := Host.Outcome.next.inj ((exec_init_rejected s nn key hl).symm.trans hs)
    exact ⟨_, exec_init_rejected u nn key hl, agree_takeException s u h _⟩
  | true =>
    obtain ⟨hc, hr, -, -⟩ := h
    obtain ⟨buf, n, hu, -⟩ := exec_init_accepted u nn key hl
    exact ⟨_, hu, exec_init_accepted_agree s u s' _ nn key hl hc hr hs hu⟩

theorem exec_update_agree (s u s' : State) (data : List Byte) (h : s.agree u) (hs : exec (.update data) s = .next s') :
    ∃ u', exec (.update data) u = .next u' ∧ s'.agree u' := by
  obtain ⟨hc, hr, hp, hctx⟩ := (agree_iff s u).1 h
  obtain ⟨hn, rfl⟩ | ⟨hactive, s1, ha, rfl⟩ := exec_update_cases s s' data hs
  · exact ⟨_, exec_update_rejected u data (hp ▸ hn), agree_takeException s u h _⟩
  · obtain ⟨u1, hu1, hctx1⟩ := (hctx hactive).absorb data s u s1 ha
    obtain ⟨-, -, -, hps, hcs, hrs, -⟩ := absorb_frame data s s1 ha
    obtain ⟨-, -, -, hpu, hcu, hru, -⟩ := absorb_frame data u u1 hu1
    refine ⟨_, exec_update_absorbed u u1 data (hp ▸ hactive) hu1, ?_, ?_, ?_, fun _ => hctx1⟩
    · exact hcs.trans (hc.trans hcu.symm)
    · rw [respond_responses, respond_responses, hrs, hru, hr]
    · exact hps.trans (hp.trans hpu.symm)

theorem exec_final_agree (s u s' : State) (h : s.agree u) (hs : exec .final s = .next s') :
    ∃ u', exec .final u = .next u' ∧ s'.agree u' := by
  obtain ⟨hc, hr, hp, hctx⟩ := (agree_iff s u).1 h
  obtain ⟨hn, rfl⟩ | ⟨hactive, old, hread, rfl⟩ := exec_final_cases s s' hs
  · exact ⟨_, exec_final_rejected u (hp ▸ hn), agree_takeException s u h _⟩
  · have hreadu := (hctx hactive).memRead_eq s u old hread
    obtain ⟨hh, ht, hf, hl, hnn, -⟩ := hctx hactive
    refine ⟨_, exec_final_active u old (hp ▸ hactive) hreadu, ?_, ?_, ?_, fun hdone => ?_⟩
    · simpa using hc
    · simp [hr, hh, ht, hf, hl, hnn]
    · simp
    · simp at hdone

/-- Settles O49, by the ways a step answers (`step_cases`): an engine in agreement has the same packet to take, and each command
keeps the agreement. -/
theorem hiddenStateNeverReachesTheHost : Obligations.HiddenStateNeverReachesTheHost := by
  intro s u s' h hstep
  have hc : s.commands = u.commands := h.1
  obtain ⟨hnil, rfl⟩ | ⟨cut, rest, hev, rfl⟩ | ⟨p, rest, e, hev, hd, rfl⟩ | ⟨p, rest, i, hev, hd, he⟩ :=
    step_cases s s' hstep
  · exact ⟨u, step_waiting u (hc ▸ hnil), h⟩
  · exact ⟨_, step_reset u cut rest (hc ▸ hev), agree_takeReset _ _ (agree_consume s u h rest _)⟩
  · exact ⟨_, step_illegalPacket u p rest (hc ▸ hev) (illegalPacket_of_error p e hd),
      agree_takeException _ _ (agree_consume s u h rest 1) _⟩
  · have hconsumed := agree_consume s u h rest 1
    rw [step_decoded u p rest i (hc ▸ hev) hd]
    obtain ⟨nn, key, -, rfl⟩ | ⟨data, -, rfl⟩ | ⟨-, rfl⟩ := decode_ok_cases p i hd
    · exact exec_init_agree _ _ s' nn key hconsumed he
    · exact exec_update_agree _ _ s' data hconsumed he
    · exact exec_final_agree _ _ s' hconsumed he

end Sys2Proof.Machine
end

section
/-! The mixer as a bijection, and the orders of its applications that give the same result (41_mixer_g.md R71, R73;
42_compression.md R82). -/

namespace Sys2Proof.Machine

/-- The four words of two working vectors are the same where the vectors agree on the group. -/
theorem four_eq_iff (v u : Vector Word 16) (a b c d : Fin 16) :
    four v a b c d = four u a b c d ↔ ∀ j ∈ [a, b, c, d], v[j] = u[j] := by
  simp [four]

/-- An application leaves the closed form on its group (R70). -/
theorem four_mixG (v : Vector Word 16) (a b c d : Fin 16) (x y : Word) (hn : [a, b, c, d].Nodup) :
    four (mixG v a b c d x y) a b c d = mixFour (four v a b c d) x y :=
  (mixG_four v a b c d x y hn).1

/-- An application leaves every word off its group as it was (R70). -/
theorem mixG_getElem_off (v : Vector Word 16) (a b c d : Fin 16) (x y : Word) (hn : [a, b, c, d].Nodup) (j : Fin 16)
    (hj : j ∉ [a, b, c, d]) : (mixG v a b c d x y)[j] = v[j] :=
  (mixG_four v a b c d x y hn).2 j hj

/-- Working vectors with the same words on a group and off it are equal. -/
theorem eq_of_four_eq (v u : Vector Word 16) (a b c d : Fin 16) (hon : four v a b c d = four u a b c d)
    (hoff : ∀ j : Fin 16, j ∉ [a, b, c, d] → v[j] = u[j]) : v = u := by
  refine words16_ext v u fun j => ?_
  by_cases hj : j ∈ [a, b, c, d]
  · exact (four_eq_iff v u a b c d).1 hon j hj
  · exact hoff j hj

/-- Half of the mixer: four of its eight steps, with the message word `x` and the rotation amounts `m` and `n` (R70). -/
def mixHalf (x : Word) (m n : Nat) (w : Word × Word × Word × Word) : Word × Word × Word × Word :=
  let a := add64 (add64 w.1 w.2.1) x
  let d := rotr64 (xor64 w.2.2.2 a) m
  let c := add64 w.2.2.1 d
  (a, rotr64 (xor64 w.2.1 c) n, c, d)

/-- The eight steps are two times the same four (R70). -/
theorem mixFour_eq_halves (w : Word × Word × Word × Word) (x y : Word) :
    mixFour w x y = mixHalf y 16 63 (mixHalf x 32 24 w) := rfl

/-- Each step can be undone, the last first: a rotation, an exclusive or, an addition of words still known. -/
theorem mixHalf_injective (x : Word) (m n : Nat) : Function.Injective (mixHalf x m n) := by
  rintro ⟨a, b, c, d⟩ ⟨a', b', c', d'⟩ h
  simp only [mixHalf, Prod.mk.injEq] at h
  obtain ⟨ha, hb, hc, hd⟩ := h
  rw [hc] at hb
  obtain rfl : b = b' := (BitVec.xor_left_inj _).1 (rotr64_injective n _ _ hb)
  obtain rfl : a = a' := (BitVec.add_left_inj _).1 ((BitVec.add_left_inj _).1 ha)
  obtain rfl : d = d' := (BitVec.xor_left_inj _).1 (rotr64_injective m _ _ hd)
  obtain rfl : c = c' := (BitVec.add_left_inj _).1 hc
  rfl

theorem mixFour_injective (x y : Word) : Function.Injective fun w => mixFour w x y := by
  intro w w' h
  simp only [mixFour_eq_halves] at h
  exact mixHalf_injective x 32 24 (mixHalf_injective y 16 63 h)

theorem mixG_injective (a b c d : Fin 16) (x y : Word) (hn : [a, b, c, d].Nodup) :
    Function.Injective fun v => mixG v a b c d x y := by
  intro v u h
  have h : mixG v a b c d x y = mixG u a b c d x y := h
  refine eq_of_four_eq v u a b c d (mixFour_injective x y ?_) fun j hj => ?_
  · show mixFour (four v a b c d) x y = mixFour (four u a b c d) x y
    rw [← four_mixG v a b c d x y hn, h, four_mixG u a b c d x y hn]
  · rw [← mixG_getElem_off v a b c d x y hn j hj, h, mixG_getElem_off u a b c d x y hn j hj]

/-- There are finitely many working vectors. -/
theorem finite_workingVectors : Finite (Vector Word 16) :=
  Finite.of_injective (fun v (j : Fin 16) => v[j]) fun v u h => words16_ext v u (congrFun h)

/-- With zero message words the zero vector is a fixed point (R71 (a)). -/
theorem mixG_zero (a b c d : Fin 16) (hn : [a, b, c, d].Nodup) :
    mixG (Vector.replicate 16 0) a b c d 0 0 = Vector.replicate 16 0 := by
  have hzero : four (Vector.replicate 16 0) a b c d = (0, 0, 0, 0) := by simp [four]
  have hmix : mixFour (0, 0, 0, 0) 0 0 = (0, 0, 0, 0) := by decide
  refine eq_of_four_eq _ _ a b c d ?_ (mixG_getElem_off _ a b c d 0 0 hn)
  rw [four_mixG _ a b c d 0 0 hn, hzero, hmix]

/-- Settles O11: `G` loses nothing (`mixG_injective`), and there are finitely many working vectors. -/
theorem mixerIsInvertible : Obligations.MixerIsInvertible := by
  intro a b c d x y hn
  have hfinite := finite_workingVectors
  exact ⟨Finite.injective_iff_bijective.1 (mixG_injective a b c d x y hn), mixG_zero a b c d hn⟩

/-- An application on another group leaves the four words alone. -/
theorem four_mixG_of_disjoint (v : Vector Word 16) (a b c d a' b' c' d' : Fin 16) (x' y' : Word)
    (hn' : [a', b', c', d'].Nodup) (hd : ∀ j ∈ [a, b, c, d], j ∉ [a', b', c', d']) :
    four (mixG v a' b' c' d' x' y') a b c d = four v a b c d :=
  (four_eq_iff _ _ a b c d).2 fun j hj => mixG_getElem_off v a' b' c' d' x' y' hn' j (hd j hj)

/-- What an application writes on its group does not depend on an application on another group before it. -/
theorem four_mixG_mixG (v : Vector Word 16) (a b c d a' b' c' d' : Fin 16) (x y x' y' : Word)
    (hn : [a, b, c, d].Nodup) (hn' : [a', b', c', d'].Nodup) (hd : ∀ j ∈ [a, b, c, d], j ∉ [a', b', c', d']) :
    four (mixG (mixG v a' b' c' d' x' y') a b c d x y) a b c d = four (mixG v a b c d x y) a b c d := by
  rw [four_mixG _ a b c d x y hn, four_mixG v a b c d x y hn, four_mixG_of_disjoint v a b c d a' b' c' d' x' y' hn' hd]

/-- Settles O12: on either group both orders leave what the group's own application leaves (`four_mixG_mixG`), and every other
word is as it was. -/
theorem mixerCommutesOnDisjointGroups : Obligations.MixerCommutesOnDisjointGroups := by
  intro v a b c d a' b' c' d' x y x' y' h
  obtain ⟨hn, hn', hdisjoint⟩ := List.nodup_append'.1 (show ([a, b, c, d] ++ [a', b', c', d']).Nodup from h)
  have hd : ∀ j ∈ [a, b, c, d], j ∉ [a', b', c', d'] := fun j hj hj' => hdisjoint hj hj'
  have hd' : ∀ j ∈ [a', b', c', d'], j ∉ [a, b, c, d] := fun j hj' hj => hdisjoint hj hj'
  refine eq_of_four_eq _ _ a b c d ?_ fun j hj => ?_
  · rw [four_mixG_of_disjoint _ a b c d a' b' c' d' x' y' hn' hd, four_mixG_mixG v a b c d a' b' c' d' x y x' y' hn hn' hd]
  · rw [mixG_getElem_off _ a b c d x y hn j hj]
    by_cases hj' : j ∈ [a', b', c', d']
    · exact (four_eq_iff _ _ a' b' c' d').1 (four_mixG_mixG v a' b' c' d' a b c d x' y' x y hn' hn hd') j hj'
    · rw [mixG_getElem_off _ a' b' c' d' x' y' hn' j hj', mixG_getElem_off v a' b' c' d' x' y' hn' j hj',
        mixG_getElem_off v a b c d x y hn j hj]

/-- The four indices of an index group (R22). -/
def groupIndices (i : Fin 8) : List (Fin 16) := [gidx[i].1, gidx[i].2.1, gidx[i].2.2.1, gidx[i].2.2.2]

/-- Different columns, and different diagonals, have no index in common (R22). -/
theorem groupIndices_disjoint (i j : Fin 8) (hne : i ≠ j) (h : i.val < 4 ↔ j.val < 4) :
    (groupIndices i ++ groupIndices j).Nodup := by
  revert i j
  decide

/-- Applications of one round on two columns, or on two diagonals, may be executed in either order (R73). -/
theorem applyG_comm (m : Vector Word 16) (r : Fin 12) (v : Vector Word 16) (i j : Fin 8) (h : i.val < 4 ↔ j.val < 4) :
    applyG m r (applyG m r v i) j = applyG m r (applyG m r v j) i := by
  by_cases hij : i = j
  · rw [hij]
  · exact mixerCommutesOnDisjointGroups v _ _ _ _ _ _ _ _ _ _ _ _ (groupIndices_disjoint i j hij h)

/-- Settles O13: a fold of steps that commute pairwise does not depend on their order (`applyG_comm`). -/
theorem roundAllowsAnyColumnAndDiagonalOrder : Obligations.RoundAllowsAnyColumnAndDiagonalOrder := by
  intro m v r columns diagonals hc hd
  have hcolumns : ∀ i ∈ columns, i.val < 4 := by
    intro i hi
    have : ∀ i ∈ ([0, 1, 2, 3] : List (Fin 8)), i.val < 4 := by decide
    exact this i (hc.mem_iff.1 hi)
  have hdiagonals : ∀ i ∈ diagonals, ¬ i.val < 4 := by
    intro i hi
    have : ∀ i ∈ ([4, 5, 6, 7] : List (Fin 8)), ¬ i.val < 4 := by decide
    exact this i (hd.mem_iff.1 hi)
  calc (columns ++ diagonals).foldl (applyG m r) v
      = diagonals.foldl (applyG m r) (columns.foldl (applyG m r) v) := List.foldl_append
    _ = diagonals.foldl (applyG m r) ([0, 1, 2, 3].foldl (applyG m r) v) := by
      rw [hc.foldl_eq' fun i hi j hj z => applyG_comm m r z i j (iff_of_true (hcolumns i hi) (hcolumns j hj))]
    _ = [4, 5, 6, 7].foldl (applyG m r) ([0, 1, 2, 3].foldl (applyG m r) v) :=
      hd.foldl_eq' (fun i hi j hj z => applyG_comm m r z i j (iff_of_false (hdiagonals i hi) (hdiagonals j hj))) _
    _ = applyRound m v r := (List.foldl_append (l := [0, 1, 2, 3]) (l' := [4, 5, 6, 7])).symm

end Sys2Proof.Machine
end

section
/-! The schedule tables (10_state.md R21, R22), the working vector before the first round (42_compression.md R77) and the
feed-forward (R80). -/

namespace Sys2Proof.Machine

/-- Settles O14, by checking the tables. -/
theorem scheduleTablesAreWellFormed : Obligations.ScheduleTablesAreWellFormed := by
  unfold Obligations.ScheduleTablesAreWellFormed
  decide

/-- Settles O15: the sixteen words, read off one index at a time. -/
theorem workingVectorStartsFromTheRuleTable : Obligations.WorkingVectorStartsFromTheRuleTable := by
  refine fun h t f => ⟨fun i => ?_, fun i => ?_, rfl, rfl, rfl, rfl⟩
  · fin_cases i <;> rfl
  · fin_cases i <;> rfl

/-- Settles O18: what `COMPRESS` can do when it answers (`compress_ok`), and that it answers where the block can be read
(`compress_of_read`). -/
theorem compressFeedsForward : Obligations.CompressFeedsForward := by
  refine fun s => ⟨fun t h => ?_, fun block hread => ?_⟩
  · obtain ⟨block, hread, -⟩ := compress_ok s t h
    exact ⟨block, hread⟩
  · exact ⟨_, compress_of_read s block hread, rfl, feedForward_getElem s.h _, rfl⟩

end Sys2Proof.Machine
end

section
/-! The accesses of the buffer (20_memory.md R31, R44; 10_state.md R13). -/

namespace Sys2Proof.Machine

/-- A read that leaves `0 .. 127` stops by name (R44). -/
theorem memRead_outside (s : State) (addr n : Nat) (h : 128 < addr + n) :
    memRead s addr n = .error (.addressOutOfRange addr n) := if_neg (Nat.not_le.2 h)

/-- A write that leaves `0 .. 127` stops by name (R44). -/
theorem memWrite_outside (s : State) (addr : Nat) (bytes : List Byte) (h : 128 < addr + bytes.length) :
    memWrite s addr bytes = .error (.addressOutOfRange addr bytes.length) := if_neg (Nat.not_le.2 h)

/-- Everything a write that is done does (R31). -/
theorem memWrite_ok_iff (s t : State) (addr : Nat) (bytes : List Byte) :
    memWrite s addr bytes = .ok t ↔
      addr + bytes.length ≤ 128 ∧ t = s.setBuf (Memory.writeBytes s.buf addr bytes) := by
  by_cases h : addr + bytes.length ≤ 128
  · simp [memWrite_ok s addr bytes h, h, eq_comm]
  · simp [memWrite_outside s addr bytes (Nat.not_le.1 h), h]

/-- Settles O19: a read is decided by `memRead_ok_iff`, a write by `memWrite_ok_iff`, and the bytes after a write are those of
`Memory.read_writeBytes`. -/
theorem bufferReadsAndWrites : Obligations.BufferReadsAndWrites := by
  refine fun s addr bytes => ⟨fun n => memRead_ok_iff s addr n bytes, fun hin => ?_, fun hout t hw => ?_, fun haddr => ?_⟩
  · refine ⟨_, memWrite_ok s addr bytes hin, fun k hk => ?_, fun x hx => ?_, rfl⟩
    · rw [setBuf_buf, Memory.read_writeBytes, if_pos (by omega), Nat.add_sub_cancel_left]
    · rw [setBuf_buf, Memory.read_writeBytes, if_neg (by omega)]
  · obtain ⟨hin, -⟩ := (memWrite_ok_iff s t addr bytes).1 hw
    omega
  · exact ⟨(memRead_ok_iff s addr 0 []).2 ⟨haddr, rfl, fun i hi => absurd hi (Nat.not_lt_zero i)⟩,
      memWrite_ok s addr [] haddr⟩

/-- Settles O20: writes inside the buffer keep the form (`Memory.wf_writeBytes`), which leaves one list of cells for each content
(`Memory.ext_of_wfFrom`). -/
theorem bufferKeepsItsCanonicalForm : Obligations.BufferKeepsItsCanonicalForm := by
  refine ⟨fun s t addr bytes hwf hw => ?_, fun m n hm hn h => Memory.ext_of_wfFrom m n 0 hm hn h, memRead_outside,
    memWrite_outside⟩
  obtain ⟨hin, rfl⟩ := (memWrite_ok_iff s t addr bytes).1 hw
  exact Memory.wf_writeBytes s.buf addr bytes hin hwf

end Sys2Proof.Machine
end

section
/-! `UPDATE` with a payload that fits and with any payload, and the invariance of `ABSORB` under splitting (44_update.md R93 to
R95). -/

namespace Sys2Proof.Machine

/-- `UPDATE` with a payload that fits buffers it and answers (R90, R91). -/
theorem exec_update_fits (s : State) (data : List Byte) (hp : s.phase = .active) (h : s.buflen.val + data.length ≤ 128) :
    exec (.update data) s = .next (respond ((s.setBuf (Memory.writeBytes s.buf s.buflen.val data)).setBuflen
      (s.buflen.val + data.length)) .ok []) :=
  exec_update_absorbed s _ data hp ((absorb_of_fits data s (Nat.le_sub_of_add_le' h)).trans (bufferRest_ok data s h))

/-- Settles O26: `exec_update_fits`, with the bytes of `Memory.read_writeBytes`. -/
theorem updateThatFitsOnlyBuffers : Obligations.UpdateThatFitsOnlyBuffers := fun s data hp h =>
  ⟨_, exec_update_fits s data hp h, setBuflen_val s _ h, Memory.read_writeBytes s.buf s.buflen.val data, rfl⟩

/-- Settles O27: the valid bytes are an input absorbed from `s` (`absorbed_start`), the payload continues it (`absorbed_bytes`),
and what `ABSORB` never writes is `absorb_frame`. -/
theorem updateReachesTheClosedForm : Obligations.UpdateReachesTheClosedForm := by
  intro s data old hp hread
  obtain ⟨s1, ha, hh, ht, -, hl, hbuf⟩ := absorbed_bytes s s old data (absorbed_start s old hread)
  obtain ⟨hf, hn, hk, hphase, hc, hr, hci, hresets⟩ := absorb_frame data s s1 ha
  refine ⟨_, exec_update_absorbed s s1 data hp ha, hh, ht, Nat.eq_sub_of_add_eq hl, hbuf, ?_⟩
  simp [respond, Status.code, hf, hn, hk, hphase, hc, hr, hci, hresets]

/-- Bytes absorbed in two parts are absorbed as one string (R94). -/
theorem absorb_append (x y : List Byte) (s : State) : absorb (x ++ y) s = absorb x s >>= absorb y := by
  have hy : absorb y = fun u => y.foldlM absorbByte u := funext (absorb_eq_foldlM y)
  rw [hy, absorb_eq_foldlM, absorb_eq_foldlM, List.foldlM_append]

/-- Settles O29: `ABSORB` takes the bytes one after another, so that a split does not matter (`absorb_append`). -/
theorem absorbIsChunkInvariant : Obligations.AbsorbIsChunkInvariant := by
  refine ⟨fun x y s s1 h => ?_, fun chunks s => ?_⟩
  · rw [absorb_append, h, ok_bind]
  · induction chunks generalizing s with
    | nil => rfl
    | cons chunk chunks ih =>
      rw [List.flatten_cons, absorb_append, List.foldlM_cons]
      exact bind_congr fun u => ih u

end Sys2Proof.Machine
end

section
/-! One step: the decoded command, waiting, the reset (00_scope.md R4, 70_reset_and_hazards.md R120), the commands accepted right
after reset, and engines side by side (60_exceptions.md R116). -/

namespace Sys2Proof.Machine

/-- Settles O40: taking the packet is `State.consume` (`step_decoded`). -/
theorem stepRunsTheDecodedCommand : Obligations.StepRunsTheDecodedCommand := step_decoded

/-- Settles O41: a step with nothing sent is `step_waiting`, one on a reset `step_reset`. -/
theorem waitingAndReset : Obligations.WaitingAndReset := by
  refine ⟨step_waiting, fun s cut rest hc => ⟨_, step_reset s cut rest hc, rfl, fun _ => rfl, rfl, rfl, rfl, ?_⟩⟩
  cases cut <;> rfl

/-- Settles O42: in `IDLE` the phase check rejects `UPDATE` and `FINAL`, and `INIT` asks for its operands only. -/
theorem resetAcceptsOnlyInit : Obligations.ResetAcceptsOnlyInit := by
  have hidle : State.reset.phase ≠ .active := by decide
  refine ⟨rfl, fun _ => rfl, fun data => exec_update_rejected State.reset data hidle,
    exec_final_rejected State.reset hidle, fun nn hpos hmax => ?_⟩
  have hlegal : initOperandsLegal nn [] = true := (initOperandsLegal_iff nn []).2 ⟨hpos, hmax, Nat.zero_le _⟩
  exact ⟨_, exec_init_unkeyed State.reset nn hlegal, rfl, rfl⟩

/-- A step of engine `k` is a step of its state, put back in its place (R116). -/
theorem stepEngine_eq_some_iff (sys a : System) (k : Nat) :
    System.stepEngine sys k = some a ↔ ∃ s t, sys[k]? = some s ∧ step s = .next t ∧ a = sys.set k t := by
  rw [System.stepEngine]
  cases hk : sys[k]? with
  | none => simp
  | some s => cases hs : step s <;> simp [hs, eq_comm]

/-- Settles O50: a step replaces one state of the list and reads no other. -/
theorem enginesAreIndependent : Obligations.EnginesAreIndependent := by
  intro sys a b j k hjk ha hb
  obtain ⟨s, s', hs, hstep, rfl⟩ := (stepEngine_eq_some_iff sys a j).1 ha
  obtain ⟨u, u', hu, hstep', rfl⟩ := (stepEngine_eq_some_iff sys b k).1 hb
  have hkept : (sys.set j s')[k]? = sys[k]? := List.getElem?_set_ne hjk
  have hkept' : (sys.set k u')[j]? = sys[j]? := List.getElem?_set_ne hjk.symm
  refine ⟨hkept, hkept', (sys.set j s').set k u', ?_, ?_⟩
  · exact (stepEngine_eq_some_iff _ _ k).2 ⟨u, u', hkept.trans hu, hstep', rfl⟩
  · exact (stepEngine_eq_some_iff _ _ j).2 ⟨s, s', hkept'.trans hs, hstep, List.set_comm s' u' hjk⟩

end Sys2Proof.Machine
end

section
/-! Packets and lines written out (30_encoding.md sections 1, 3 and 5). -/

namespace Sys2Proof.Machine

/-- Settles O4: each legal packet is its command's (`decode_init`, `decode_update`, `decode_final`); the nine illegal ones are
decoded. -/
theorem writtenOutPacketsDecode : Obligations.WrittenOutPacketsDecode :=
  ⟨decode_init 64 [], decode_init 20 [0x6b, 0x65, 0x79], decode_update [], decode_update [0x61, 0x62, 0x63], decode_final,
    by decide⟩

/-- The bytes of the table's word of `INIT`: the operation code, then the argument (R46). -/
theorem tablePacket_init (nn : Byte) : tablePacket 16 (0x0001 + 256 * nn.toNat) = [0x01, nn] := by
  have hnn := nn.isLt
  have hopc : BitVec.ofNat 8 ((0x0001 + 256 * nn.toNat) % 2 ^ 16 / 2 ^ 0) = 0x01 := by
    apply BitVec.eq_of_toNat_eq
    simp
  have harg : BitVec.ofNat 8 ((0x0001 + 256 * nn.toNat) % 2 ^ 16 / 2 ^ 8) = nn := by
    apply BitVec.eq_of_toNat_eq
    simp
    omega
  exact congrArg₂ (fun opc arg => [opc, arg]) hopc harg

/-- Settles O5: the word of `INIT` at every argument (`tablePacket_init`), the two fixed words by their bytes. -/
theorem tableWordsDecode : Obligations.TableWordsDecode := by
  refine ⟨fun nn => ?_, by decide, by decide⟩
  rw [decodeTableWord, tablePacket_init]
  rfl

/-- Settles O51, by reading each line. -/
theorem programTextAssembles : Obligations.ProgramTextAssembles := by
  unfold Obligations.ProgramTextAssembles
  decide

end Sys2Proof.Machine
end

section
/-! The digest that commands in a row answer, as the function of their operands: `HASH`, and programs of any chunks with or
without a key (45_final_and_hash.md R102 to R104, 44_update.md R95). -/

namespace Sys2Proof.Machine

/-! ### The context of a digest -/

/-- The context that an accepted `INIT nn, key` creates, before anything else is absorbed (R86, R87). -/
structure FreshContext (nn : Byte) (key : List Byte) (s : State) : Prop where
  chain : s.h = initialChain nn (BitVec.ofNat 8 key.length)
  count : counterValue s.t = 0
  flags : s.f = clearedFlags
  valid : memRead s 0 s.buflen.val = .ok (absorbedInput key [])

/-- An active context that has absorbed `data` since its `INIT nn, key`. -/
def Absorbing (nn : Byte) (key data : List Byte) (s : State) : Prop :=
  s.phase = .active ∧ s.nn = nn ∧ s.kk = BitVec.ofNat 8 key.length ∧
    ∃ s0, FreshContext nn key s0 ∧ Absorbed s0 (absorbedInput key data) s

theorem absorbedInput_append (key data more : List Byte) :
    absorbedInput key data ++ more = absorbedInput key (data ++ more) := by
  by_cases hk : key = [] <;> simp [absorbedInput, hk]

/-- Where a context came from does not depend on the streams. -/
theorem absorbing_consume (nn : Byte) (key data : List Byte) (s : State) (h : Absorbing nn key data s)
    (rest : List HostEvent) (n : Nat) : Absorbing nn key data (s.consume rest n) := by
  obtain ⟨hp, hn, hk, s0, hfresh, ha⟩ := h
  exact ⟨hp, hn, hk, s0, hfresh, ha.congr s0 s _ _ rfl rfl rfl rfl rfl⟩

/-- The context of an accepted `INIT` has absorbed no data. -/
theorem absorbing_of_fresh (nn : Byte) (key : List Byte) (s : State) (h : FreshContext nn key s) (hp : s.phase = .active)
    (hn : s.nn = nn) (hk : s.kk = BitVec.ofNat 8 key.length) : Absorbing nn key [] s :=
  ⟨hp, hn, hk, s, h, absorbed_start s _ h.valid⟩

/-- An accepted `INIT` creates the context of its digest (R86 to R88). -/
theorem exec_init_absorbing (s : State) (nn : Byte) (key : List Byte) (h : initOperandsLegal nn key = true) :
    ∃ t, exec (.init nn key) s = .next t ∧ Absorbing nn key [] t := by
  obtain ⟨-, -, hkey⟩ := (initOperandsLegal_iff nn key).1 h
  by_cases hk : key = []
  · subst hk
    have hvalid : memRead (respond (s.loadContext nn 0) .ok []) 0 0 = .ok [] :=
      (memRead_ok_iff _ 0 0 []).2 ⟨Nat.zero_le _, rfl, fun i hi => absurd hi (Nat.not_lt_zero i)⟩
    exact ⟨_, exec_init_unkeyed s nn h, absorbing_of_fresh nn [] _ ⟨rfl, rfl, rfl, hvalid⟩ rfl rfl rfl⟩
  · have hblock : Memory.readBytes (Memory.writeBytes s.buf 0 (keyBlock key)) 0 128 = some (keyBlock key) := by
      rw [← keyBlock_length key hkey, Memory.readBytes_writeBytes]
    have hvalid : memRead (respond (afterKey s nn key) .ok []) 0 128 = .ok (absorbedInput key []) := by
      simp [memRead, hblock, absorbedInput, hk]
    exact ⟨_, exec_init_keyed s nn key h hk, absorbing_of_fresh nn key _ ⟨rfl, rfl, rfl, hvalid⟩ rfl rfl rfl⟩

/-- `UPDATE` in such a context absorbs its data and answers `OK` (R91, R95). -/
theorem exec_update_absorbing (nn : Byte) (key data more : List Byte) (s : State) (h : Absorbing nn key data s) :
    ∃ t, exec (.update more) s = .next t ∧ Absorbing nn key (data ++ more) t ∧ t.responses = s.responses ++ [[0x00]] := by
  obtain ⟨hp, hn, hk, s0, hfresh, ha⟩ := h
  obtain ⟨s1, habsorb, ha1⟩ := absorbed_bytes s0 s _ more ha
  obtain ⟨-, hn1, hk1, hp1, -, hr1, -⟩ := absorb_frame more s s1 habsorb
  rw [absorbedInput_append] at ha1
  refine ⟨_, exec_update_absorbed s s1 more hp habsorb, ⟨hp1.trans hp, hn1.trans hn, hk1.trans hk, s0, hfresh,
    ha1.congr s0 s1 _ _ rfl rfl rfl rfl rfl⟩, ?_⟩
  rw [respond_responses, hr1]
  rfl

/-- The counter after the last compression counts every byte of the input (R99). -/
theorem absorbed_lastCount (s0 s : State) (input : List Byte) (h : Absorbed s0 input s) :
    counterValue (incCounter s.t s.buflen.val) = (counterValue s0.t + input.length) % 2 ^ 128 := by
  obtain ⟨-, hcount, -, hlen, -⟩ := h
  rw [counterValue_incCounter _ _ (by omega), hcount]
  omega

/-- `FINAL` in such a context answers the digest of the key and the data (R99, R100, R103). -/
theorem exec_final_absorbing (nn : Byte) (key data : List Byte) (s : State) (h : Absorbing nn key data s) :
    ∃ block, exec .final s =
      .next (respond ((afterLast s block).setPhase .done) .ok (blake2b nn key data)) := by
  obtain ⟨hp, hn, -, s0, hfresh, ha⟩ := h
  have hexec := exec_final_absorbed s0 s _ ha hp hfresh.count hfresh.flags
  rw [hfresh.chain, hn] at hexec
  exact ⟨_, hexec⟩

theorem blake2b_length (nn : Byte) (key data : List Byte) (hn : nn.toNat ≤ 64) :
    (blake2b nn key data).length = nn.toNat := digest_length nn _ hn

/-! ### HASH -/

/-- `HASH` with a length in range is what `FINAL` answers after `INIT` and `UPDATE` (R102). -/
theorem exec_hash_eq_final (s s1 s2 : State) (nn : Byte) (data : List Byte) (hl : initOperandsLegal nn [] = true)
    (h1 : exec (.init nn []) s = .next s1) (h2 : exec (.update data) s1 = .next s2) :
    exec (.hash nn data) s = exec .final s2 := by
  obtain rfl := Host.Outcome.next.inj ((exec_init_unkeyed s nn hl).symm.trans h1)
  obtain ⟨hn, -⟩ | ⟨-, s1', ha, rfl⟩ := exec_update_cases _ s2 data h2
  · exact absurd rfl hn
  · exact exec_hash_legal s s1' nn data hl ha

/-- A length in range is one that `INIT` without a key accepts. -/
theorem initOperandsLegal_unkeyed (nn : Byte) (hpos : 1 ≤ nn.toNat) (hmax : nn.toNat ≤ 64) :
    initOperandsLegal nn [] = true := (initOperandsLegal_iff nn []).2 ⟨hpos, hmax, Nat.zero_le _⟩

/-- A length out of range is one that `INIT` rejects. -/
theorem initOperandsLegal_outOfRange (nn : Byte) (key : List Byte) (h : nn.toNat = 0 ∨ 65 ≤ nn.toNat) :
    initOperandsLegal nn key = false := (initOperandsLegal_eq_false_iff nn key).2 (h.imp_right .inl)

/-- Settles O34: the `INIT` of `HASH` is rejected, and nothing follows (`exec_hash_rejected`). -/
theorem hashStopsAtARejectedInit : Obligations.HashStopsAtARejectedInit := fun s nn data h =>
  exec_hash_rejected s nn data (initOperandsLegal_outOfRange nn [] h)

/-- Settles O33: `INIT` creates the context of the digest, `UPDATE` absorbs the data into it and `FINAL` answers; the registers
are those of the last compression. -/
theorem hashComputesBlake2b : Obligations.HashComputesBlake2b := by
  intro s nn data hpos hmax
  have hl := initOperandsLegal_unkeyed nn hpos hmax
  obtain ⟨s1, hinit, hctx1⟩ := exec_init_absorbing s nn [] hl
  obtain ⟨s2, hupdate, hctx2, hr2⟩ := exec_update_absorbing nn [] [] data s1 hctx1
  obtain ⟨block, hfinal⟩ := exec_final_absorbing nn [] data s2 hctx2
  have hexec := (exec_hash_eq_final s s1 s2 nn data hl hinit hupdate).trans hfinal
  obtain ⟨hc, hci, hresets, -⟩ := exec_streams _ s _ hexec
  obtain ⟨-, hn, hk, s0, hfresh, ha⟩ := hctx2
  have hcount := absorbed_lastCount s0 s2 _ ha
  obtain ⟨-, -, hf, -, -⟩ := ha
  refine ⟨_, hexec, ?_, blake2b_length nn [] data hmax, rfl, hn, hk, ?_, ?_, hc, hci, hresets⟩
  · rw [respond_responses, setPhase_responses, afterLast_responses, hr2, exec_init_responses s s1 nn [] hinit, hl]
    simp [Status.code]
  · rw [respond_f, setPhase_f, afterLast_f, markLastBlock_eq, hf, hfresh.flags]
    rfl
  · rw [respond_t, setPhase_t, afterLast_t, hcount, hfresh.count, Nat.zero_add]
    rfl

/-- The packets of `HASH` with a length in range (R57). -/
theorem packetsOf_hash_legal (nn : Byte) (data : List Byte) (hpos : 1 ≤ nn.toNat) (hmax : nn.toNat ≤ 64) :
    packetsOf (.hash nn data) = [[0x01, nn], [0x02, 0x00] ++ data, [0x03, 0x00]] := by
  simp [packetsOf, expansion, encode, hpos, hmax]

/-- With a length out of range the host sends the `INIT` alone (R57). -/
theorem packetsOf_hash_rejected (nn : Byte) (data : List Byte) (h : nn.toNat = 0 ∨ 65 ≤ nn.toNat) :
    packetsOf (.hash nn data) = [[0x01, nn]] := by
  have hout : ¬(1 ≤ nn.toNat ∧ nn.toNat ≤ 64) := by omega
  simp [packetsOf, expansion, encode, hout]

/-- An `INIT` without a key does not look at the streams. -/
theorem exec_init_unkeyed_consume (s : State) (nn : Byte) (hl : initOperandsLegal nn [] = true) (rest : List HostEvent)
    (n : Nat) : exec (.init nn []) (s.consume rest n) = .next ((respond (s.loadContext nn 0) .ok []).consume rest n) :=
  exec_init_unkeyed (s.consume rest n) nn hl

/-- An `UPDATE` does not look at the command stream and the position. -/
theorem exec_update_consume (s s1 : State) (data : List Byte) (hp : s.phase = .active) (ha : absorb data s = .ok s1)
    (rest : List HostEvent) (n : Nat) :
    exec (.update data) (s.consume rest n) = .next ((respond s1 .ok []).consume rest n) :=
  exec_update_absorbed (s.consume rest n) (s1.consume rest n) data hp (absorb_consume data s s1 rest n ha)

theorem consume_consume (s : State) (rest rest' : List HostEvent) (n m : Nat) :
    (s.consume rest n).consume rest' m = s.consume rest' (n + m) := by
  simp [State.consume, Nat.add_assoc]

/-- Three steps on the packets of `HASH` end as `HASH` does on the state with them taken. -/
theorem run_hash_packets (s : State) (nn : Byte) (data : List Byte) (rest : List HostEvent)
    (hl : initOperandsLegal nn [] = true)
    (hc : s.commands = .packet [0x01, nn] :: .packet ([0x02, 0x00] ++ data) :: .packet [0x03, 0x00] :: rest) :
    Host.Core.run Sys2Proof.core 3 s = exec (.hash nn data) (s.consume rest 3) := by
  obtain ⟨s1, ha, -⟩ := absorb_total data (respond (s.loadContext nn 0) .ok []) fun a ha => absurd ha (Nat.not_lt_zero a)
  have hinit := exec_init_unkeyed_consume s nn hl
  have hupdate := exec_update_consume _ s1 data rfl ha
  have hstep1 := (step_decoded s _ _ _ hc (decode_init nn [])).trans (hinit _ 1)
  have hstep2 := step_decoded ((respond (s.loadContext nn 0) .ok []).consume _ 1) _ (.packet [0x03, 0x00] :: rest) _ rfl
    (decode_update data)
  rw [consume_consume, hupdate] at hstep2
  have hstep3 := step_decoded ((respond s1 .ok []).consume _ 2) _ rest _ rfl decode_final
  rw [consume_consume] at hstep3
  have hhash := exec_hash_eq_final _ _ _ nn data hl (hinit rest 3) (hupdate rest 3)
  exact (run_next 2 s _ hstep1).trans ((run_next 1 _ _ hstep2).trans ((run_one _).trans (hstep3.trans hhash.symm)))

/-- Settles O35: three steps with a length in range (`run_hash_packets`), and one step that raises with a length out of range. -/
theorem hashIsItsThreePackets : Obligations.HashIsItsThreePackets := by
  refine fun s nn data rest => ⟨fun hpos hmax => ?_, fun hout => ?_⟩
  · have hpackets := packetsOf_hash_legal nn data hpos hmax
    refine ⟨hpackets, ?_⟩
    rw [hpackets]
    exact run_hash_packets { s with commands := _ } nn data rest (initOperandsLegal_unkeyed nn hpos hmax) rfl
  · have hpackets := packetsOf_hash_rejected nn data hout
    have hl := initOperandsLegal_outOfRange nn [] hout
    have hhash := exec_hash_rejected (s.consume rest 1) nn data hl
    refine ⟨hpackets, ?_, hhash⟩
    rw [hpackets, run_one]
    exact ((step_decoded _ _ rest _ rfl (decode_init nn [])).trans (exec_init_rejected _ nn [] hl)).trans hhash.symm

/-! ### Programs -/

/-- The packet of an `UPDATE` (R48). -/
def updatePacket (data : List Byte) : Packet := [0x02, 0x00] ++ data

/-- Steps on `UPDATE` packets absorb the chunks in order and answer `OK` for each. -/
theorem run_updates (nn : Byte) (key data : List Byte) (chunks : List (List Byte)) (rest : List HostEvent) (k : Nat)
    (s : State) (h : Absorbing nn key data s)
    (hc : s.commands = (chunks.map fun chunk => .packet (updatePacket chunk)) ++ rest) :
    ∃ t : State, Host.Core.run Sys2Proof.core (chunks.length + k) s = Host.Core.run Sys2Proof.core k t ∧
      Absorbing nn key (data ++ chunks.flatten) t ∧ t.commands = rest ∧
      t.responses = s.responses ++ chunks.map fun _ => [0x00] := by
  induction chunks generalizing data s with
  | nil => exact ⟨s, by simp, by simpa using h, hc, by simp⟩
  | cons chunk chunks ih =>
    obtain ⟨s1, hexec, h1, hr1⟩ := exec_update_absorbing nn key data chunk _ (absorbing_consume nn key data s h
      ((chunks.map fun chunk => .packet (updatePacket chunk)) ++ rest) 1)
    have hstep := (step_decoded s _ _ _ hc (decode_update chunk)).trans hexec
    obtain ⟨hc1, -⟩ := exec_streams _ _ s1 hexec
    obtain ⟨t, hrun, ht, hct, hrt⟩ := ih (data ++ chunk) s1 h1 hc1
    refine ⟨t, ?_, by simpa using ht, hct, ?_⟩
    · rw [List.length_cons, Nat.add_right_comm, run_next _ s s1 hstep, hrun]
    · rw [hrt, hr1]
      simp

/-- A run over the packets of a context, its chunks and its end answers each `OK` and then the digest. -/
theorem run_digest (nn : Byte) (key : List Byte) (chunks : List (List Byte)) (s : State)
    (hl : initOperandsLegal nn key = true)
    (hc : s.commands = .packet ([0x01, nn] ++ key) ::
      ((chunks.map fun chunk => .packet (updatePacket chunk)) ++ [.packet [0x03, 0x00]])) :
    ∃ t : State, Host.Core.run Sys2Proof.core (chunks.length + 1 + 1) s = .next t ∧
      t.responses = s.responses ++ ([0x00] :: chunks.map fun _ => [0x00]) ++ [0x00 :: blake2b nn key chunks.flatten] := by
  obtain ⟨s1, hinit, h1⟩ := exec_init_absorbing (s.consume _ 1) nn key hl
  have hstep := (step_decoded s _ _ _ hc (decode_init nn key)).trans hinit
  obtain ⟨hc1, -⟩ := exec_streams _ _ s1 hinit
  have hr1 := exec_init_responses _ s1 nn key hinit
  obtain ⟨s2, hrun, h2, hc2, hr2⟩ := run_updates nn key [] chunks _ 1 s1 h1 hc1
  obtain ⟨block, hfinal⟩ := exec_final_absorbing nn key _ _ (absorbing_consume nn key _ s2 h2 [] 1)
  have hlast := (run_one s2).trans ((step_decoded s2 _ _ _ hc2 decode_final).trans hfinal)
  refine ⟨_, (run_next _ s s1 hstep).trans (hrun.trans hlast), ?_⟩
  simp [hr2, hr1, hl, Status.code]

/-- Settles O36: the loaded program is the packets of `run_digest`, and no response has been given before. -/
theorem keyedProgramsComputeBlake2b : Obligations.KeyedProgramsComputeBlake2b := by
  intro s nn key chunks hpos hmax hkey
  have hl : initOperandsLegal nn key = true := (initOperandsLegal_iff nn key).2 ⟨hpos, hmax, hkey⟩
  obtain ⟨t, hrun, hrsp⟩ := run_digest nn key chunks
    (s.loadProgram (([0x01, nn] ++ key) :: (chunks.map fun chunk => [0x02, 0x00] ++ chunk) ++ [[0x03, 0x00]])) hl
    (by simp [State.loadProgram, updatePacket])
  rw [runProgram, show List.length _ = chunks.length + 1 + 1 by simp, hrun]
  exact congrArg some hrsp

end Sys2Proof.Machine
end
